-- ==== Sys2Proof/Word.lean ====
section
/-! DEFINITION. The widths of the machine's values (spec/00_scope.md R3 and section 5): every value is an
unsigned integer of a fixed width, and arithmetic wraps at that width. -/

namespace Sys2Proof

/-- A byte: a register V0..VF, a timer, a memory cell, the immediate `kk` (R10, R17, R18, R40). -/
abbrev Byte := BitVec 8

/-- A 16-bit value: I, PC, a stack entry, an instruction word (R12, R15, R16, R60). -/
abbrev Word := BitVec 16

/-- A 4-bit field of an instruction word (R61). -/
abbrev Nibble := BitVec 4

/-- The 12-bit field `nnn` (R61). -/
abbrev Imm12 := BitVec 12

/-- `a || b` of spec/00_scope.md section 6: the word with `hi` in bits 15..8 and `lo` in bits 7..0. -/
def wordOf (hi lo : Byte) : Word := hi ++ lo

/-- Bits 15..8 of a word. -/
def highByte (w : Word) : Byte := w.extractLsb' 8 8

/-- Bits 7..0 of a word. -/
def lowByte (w : Word) : Byte := w.extractLsb' 0 8

end Sys2Proof
end

