-- ==== Sys2Proof/Config.lean ====
section
/-! DEFINITION. What is fixed for the machine (spec/00_scope.md section 5) and the free values: the inputs of a
cycle and the first key snapshot, which the core does not control (R91, R36, R215). -/

namespace Sys2Proof

/-- The index of one of the 16 keys 0x0..0xF (R20). -/
abbrev Key := Fin 16

/-- The three inputs of one cycle (R91): the key source's snapshot `keys_in`, the key-press event, if any, and
the random byte. -/
structure CycleInput where
  /-- `keys_in`, bit k for key k (R89). -/
  keysIn : BitVec 16
  /-- `key_event`: none, or the key a press event reports (R82). -/
  keyEvent : Option Key
  /-- `rnd`, the byte a `RND` of this cycle draws (R123). -/
  rnd : Byte
  deriving DecidableEq, Repr, Inhabited

namespace Config

/-- MEM_SIZE: MEM has the addresses 0..4095 (R40). -/
abbrev memSize : Nat := 4096

/-- PROG_BASE: the address the loader writes from (R217, R231). -/
abbrev progBase : Nat := 0x200

/-- MAX_PROG: the longest program that can be loaded (R231). -/
abbrev maxProgram : Nat := 3584

/-- RESET_PC (R31). -/
abbrev resetPc : Word := 0x200#16

/-- STACK_DEPTH (R16). -/
abbrev stackDepth : Nat := 16

/-- FB_W and FB_H: 64 columns, 32 rows (R19). -/
abbrev columns : Nat := 64
/-- The number of rows of the framebuffer (R19). -/
abbrev rows : Nat := 32

/-- FREE VALUE. The inputs of the cycle numbered by the argument, when the state holds no input for it: any
value at all (R91, R215, R123). No body: nothing can evaluate it. Assumption 1. -/
opaque freeInput : Nat → CycleInput

/-- FREE VALUE. KEYS0, the key snapshot the first instruction sees (R36, decision D6). Assumption 2. -/
opaque keys0 : BitVec 16

end Config

end Sys2Proof
end

