-- ==== Sys2Proof/Syntax.lean ====
section
/-! DEFINITION. The instructions: one constructor per row of spec/opcode_table.json (spec/30_encoding.md R64). An
operand has exactly the width of its field (R61, R63), so no ill-formed operand can be written. -/

namespace Sys2Proof

/-- The number of a general register, V0..VF (R10). -/
abbrev Reg := Fin 16

/-- The 34 instructions of R64, in the table's order. -/
inductive Instr where
  /-- 00E0 CLS (R150). -/
  | cls
  /-- 00EE RET (R100). -/
  | ret
  /-- 1nnn JMP nnn (R101). -/
  | jmp (nnn : Imm12)
  /-- 2nnn CALL nnn (R102). -/
  | call (nnn : Imm12)
  /-- 3xkk SE Vx, kk (R110). -/
  | seImm (x : Reg) (kk : Byte)
  /-- 4xkk SNE Vx, kk (R111). -/
  | sneImm (x : Reg) (kk : Byte)
  /-- 5xy0 SE Vx, Vy (R112). -/
  | seReg (x y : Reg)
  /-- 6xkk LD Vx, kk (R120). -/
  | ldImm (x : Reg) (kk : Byte)
  /-- 7xkk ADD Vx, kk (R121). -/
  | addImm (x : Reg) (kk : Byte)
  /-- 8xy0 LD Vx, Vy (R131). -/
  | ldReg (x y : Reg)
  /-- 8xy1 OR Vx, Vy (R132). -/
  | orReg (x y : Reg)
  /-- 8xy2 AND Vx, Vy (R133). -/
  | andReg (x y : Reg)
  /-- 8xy3 XOR Vx, Vy (R134). -/
  | xorReg (x y : Reg)
  /-- 8xy4 ADD Vx, Vy (R135). -/
  | addReg (x y : Reg)
  /-- 8xy5 SUB Vx, Vy (R136). -/
  | subReg (x y : Reg)
  /-- 8xy6 SHR Vx (R137); the y field is ignored (R67) and is no operand (R68). -/
  | shr (x : Reg)
  /-- 8xy7 SUBN Vx, Vy (R138). -/
  | subnReg (x y : Reg)
  /-- 8xyE SHL Vx (R139); the y field is ignored (R67) and is no operand (R68). -/
  | shl (x : Reg)
  /-- 9xy0 SNE Vx, Vy (R113). -/
  | sneReg (x y : Reg)
  /-- Annn LD I, nnn (R122). -/
  | ldI (nnn : Imm12)
  /-- Bnnn JMP V0, nnn (R103). -/
  | jmpV0 (nnn : Imm12)
  /-- Cxkk RND Vx, kk (R123). -/
  | rnd (x : Reg) (kk : Byte)
  /-- Dxyn DRW Vx, Vy, n (R151). -/
  | drw (x y : Reg) (n : Nibble)
  /-- Ex9E SKP Vx (R160). -/
  | skp (x : Reg)
  /-- ExA1 SKNP Vx (R161). -/
  | sknp (x : Reg)
  /-- Fx07 LD Vx, DT (R170). -/
  | ldVxDt (x : Reg)
  /-- Fx0A LD Vx, K (R162). -/
  | ldVxK (x : Reg)
  /-- Fx15 LD DT, Vx (R171). -/
  | ldDtVx (x : Reg)
  /-- Fx18 LD ST, Vx (R172). -/
  | ldStVx (x : Reg)
  /-- Fx1E ADD I, Vx (R173). -/
  | addIVx (x : Reg)
  /-- Fx29 LD F, Vx (R174). -/
  | ldFVx (x : Reg)
  /-- Fx33 LD B, Vx (R175). -/
  | ldBVx (x : Reg)
  /-- Fx55 LD [I], Vx (R176). -/
  | storeRegs (x : Reg)
  /-- Fx65 LD Vx, [I] (R177). -/
  | loadRegs (x : Reg)
  deriving DecidableEq, Repr

/-- The mnemonic of the instruction's row in spec/opcode_table.json, letter for letter. -/
def Instr.mnemonic : Instr → String
  | .cls => "CLS"
  | .ret => "RET"
  | .jmp _ => "JMP_nnn"
  | .call _ => "CALL_nnn"
  | .seImm _ _ => "SE_Vx__kk"
  | .sneImm _ _ => "SNE_Vx__kk"
  | .seReg _ _ => "SE_Vx__Vy"
  | .ldImm _ _ => "LD_Vx__kk"
  | .addImm _ _ => "ADD_Vx__kk"
  | .ldReg _ _ => "LD_Vx__Vy"
  | .orReg _ _ => "OR_Vx__Vy"
  | .andReg _ _ => "AND_Vx__Vy"
  | .xorReg _ _ => "XOR_Vx__Vy"
  | .addReg _ _ => "ADD_Vx__Vy"
  | .subReg _ _ => "SUB_Vx__Vy"
  | .shr _ => "SHR_Vx"
  | .subnReg _ _ => "SUBN_Vx__Vy"
  | .shl _ => "SHL_Vx"
  | .sneReg _ _ => "SNE_Vx__Vy"
  | .ldI _ => "LD_I__nnn"
  | .jmpV0 _ => "JMP_V0__nnn"
  | .rnd _ _ => "RND_Vx__kk"
  | .drw _ _ _ => "DRW_Vx__Vy__n"
  | .skp _ => "SKP_Vx"
  | .sknp _ => "SKNP_Vx"
  | .ldVxDt _ => "LD_Vx__DT"
  | .ldVxK _ => "LD_Vx__K"
  | .ldDtVx _ => "LD_DT__Vx"
  | .ldStVx _ => "LD_ST__Vx"
  | .addIVx _ => "ADD_I__Vx"
  | .ldFVx _ => "LD_F__Vx"
  | .ldBVx _ => "LD_B__Vx"
  | .storeRegs _ => "LD__I___Vx"
  | .loadRegs _ => "LD_Vx___I"

end Sys2Proof
end

