-- ==== Sys2Proof/WellFormed.lean ====
section
/-! DEFINITION. What is well-formed before anything runs. An `Instr` is so by its types (every operand has its
field's width, R61, R63), so the checks that remain are two: on an instruction WORD (R64, R65) and on a PROGRAM
handed to the loader (R231). -/

namespace Sys2Proof

/-- One row of the opcode map (R64): the words `w` with `w & mask = pattern`. -/
structure OpcodeRow where
  /-- The row's mnemonic in spec/opcode_table.json. -/
  mnemonic : String
  /-- The bits the row fixes. -/
  mask : Word
  /-- Their values. -/
  pattern : Word
  deriving DecidableEq, Repr

/-- "A word w selects the instruction whose row it matches under (w & mask) == match" (R64). -/
def OpcodeRow.selects (r : OpcodeRow) (w : Word) : Bool := w &&& r.mask == r.pattern

/-- The rows of R64 for the classes 0 to 7. The patterns the source does not print are the spec's from general
knowledge (G1; assumption 9). -/
def opcodeRowsLow : List OpcodeRow := [
  ⟨"CLS", 0xFFFF, 0x00E0⟩,
  ⟨"RET", 0xFFFF, 0x00EE⟩,
  ⟨"JMP_nnn", 0xF000, 0x1000⟩,
  ⟨"CALL_nnn", 0xF000, 0x2000⟩,
  ⟨"SE_Vx__kk", 0xF000, 0x3000⟩,
  ⟨"SNE_Vx__kk", 0xF000, 0x4000⟩,
  ⟨"SE_Vx__Vy", 0xF00F, 0x5000⟩,
  ⟨"LD_Vx__kk", 0xF000, 0x6000⟩,
  ⟨"ADD_Vx__kk", 0xF000, 0x7000⟩]

/-- The rows of R64 for the class 8, the ALU group. -/
def opcodeRowsAlu : List OpcodeRow := [
  ⟨"LD_Vx__Vy", 0xF00F, 0x8000⟩,
  ⟨"OR_Vx__Vy", 0xF00F, 0x8001⟩,
  ⟨"AND_Vx__Vy", 0xF00F, 0x8002⟩,
  ⟨"XOR_Vx__Vy", 0xF00F, 0x8003⟩,
  ⟨"ADD_Vx__Vy", 0xF00F, 0x8004⟩,
  ⟨"SUB_Vx__Vy", 0xF00F, 0x8005⟩,
  ⟨"SHR_Vx", 0xF00F, 0x8006⟩,
  ⟨"SUBN_Vx__Vy", 0xF00F, 0x8007⟩,
  ⟨"SHL_Vx", 0xF00F, 0x800E⟩]

/-- The rows of R64 for the classes 9 to F. -/
def opcodeRowsHigh : List OpcodeRow := [
  ⟨"SNE_Vx__Vy", 0xF00F, 0x9000⟩,
  ⟨"LD_I__nnn", 0xF000, 0xA000⟩,
  ⟨"JMP_V0__nnn", 0xF000, 0xB000⟩,
  ⟨"RND_Vx__kk", 0xF000, 0xC000⟩,
  ⟨"DRW_Vx__Vy__n", 0xF000, 0xD000⟩,
  ⟨"SKP_Vx", 0xF0FF, 0xE09E⟩,
  ⟨"SKNP_Vx", 0xF0FF, 0xE0A1⟩,
  ⟨"LD_Vx__DT", 0xF0FF, 0xF007⟩,
  ⟨"LD_Vx__K", 0xF0FF, 0xF00A⟩,
  ⟨"LD_DT__Vx", 0xF0FF, 0xF015⟩,
  ⟨"LD_ST__Vx", 0xF0FF, 0xF018⟩,
  ⟨"ADD_I__Vx", 0xF0FF, 0xF01E⟩,
  ⟨"LD_F__Vx", 0xF0FF, 0xF029⟩,
  ⟨"LD_B__Vx", 0xF0FF, 0xF033⟩,
  ⟨"LD__I___Vx", 0xF0FF, 0xF055⟩,
  ⟨"LD_Vx___I", 0xF0FF, 0xF065⟩]

/-- The opcode map of R64, 34 rows. -/
def opcodeTable : List OpcodeRow := opcodeRowsLow ++ opcodeRowsAlu ++ opcodeRowsHigh

/-- A word is well-formed when it matches a row of the opcode map; every other word is unrecognized (R65). -/
def wellFormedWord (w : Word) : Bool := opcodeTable.any (fun r => r.selects w)

/-- A program is well-formed when it fits above 0x200: at most 4096 - 0x200 = 3584 bytes (R231). -/
def wellFormedProgram (p : List Byte) : Bool := p.length ≤ Config.maxProgram

end Sys2Proof
end

