-- ==== Sys2Proof/Decode.lean ====
section
/-! DEFINITION. The decoder, total on any bytes and rejecting by name (spec/30_encoding.md R60 to R66), and the
encoder, its inverse (R70). -/

namespace Sys2Proof

/-- Why bytes are no instruction. -/
inductive DecodeReject where
  /-- The word matches no row of R64 (R65). The cycle raises DecodeError (R93). Safe. -/
  | unrecognized (w : Word)
  /-- Fewer than the two bytes of an instruction (R60). Never met by the fetch, which reads both. Safe. -/
  | truncated
  deriving DecidableEq, Repr

/-- The six fields of R61. -/
structure Fields where
  /-- opcode_class, w[15:12]. -/
  c : Nibble
  /-- w[11:8], a register number. -/
  x : Reg
  /-- w[7:4], a register number. -/
  y : Reg
  /-- w[3:0]. -/
  n : Nibble
  /-- w[7:0]. -/
  kk : Byte
  /-- w[11:0]. -/
  nnn : Imm12
  deriving DecidableEq, Repr

/-- The register a 4-bit field names (R61). -/
def regOf (b : Nibble) : Reg := b.toFin

/-- The 4-bit field that names a register (R70). -/
def regBits (r : Reg) : Nibble := BitVec.ofFin r

/-- The bit-slices of R61, a total function of the word (R62). -/
def fieldsOf (w : Word) : Fields where
  c := w.extractLsb' 12 4
  x := regOf (w.extractLsb' 8 4)
  y := regOf (w.extractLsb' 4 4)
  n := w.extractLsb' 0 4
  kk := w.extractLsb' 0 8
  nnn := w.extractLsb' 0 12

/-- Class 0: the whole word is compared (R64). -/
def decodeClass0 (w : Word) : Option Instr :=
  if w = 0x00E0#16 then some .cls
  else if w = 0x00EE#16 then some .ret
  else none

/-- Class 8, the ALU group: n selects (R64). -/
def decodeClass8 (f : Fields) : Option Instr :=
  match f.n with
  | 0x0#4 => some (.ldReg f.x f.y)
  | 0x1#4 => some (.orReg f.x f.y)
  | 0x2#4 => some (.andReg f.x f.y)
  | 0x3#4 => some (.xorReg f.x f.y)
  | 0x4#4 => some (.addReg f.x f.y)
  | 0x5#4 => some (.subReg f.x f.y)
  | 0x6#4 => some (.shr f.x)
  | 0x7#4 => some (.subnReg f.x f.y)
  | 0xE#4 => some (.shl f.x)
  | _ => none

/-- Class E: kk selects (R64). -/
def decodeClassE (f : Fields) : Option Instr :=
  match f.kk with
  | 0x9E#8 => some (.skp f.x)
  | 0xA1#8 => some (.sknp f.x)
  | _ => none

/-- Class F: kk selects (R64). -/
def decodeClassF (f : Fields) : Option Instr :=
  match f.kk with
  | 0x07#8 => some (.ldVxDt f.x)
  | 0x0A#8 => some (.ldVxK f.x)
  | 0x15#8 => some (.ldDtVx f.x)
  | 0x18#8 => some (.ldStVx f.x)
  | 0x1E#8 => some (.addIVx f.x)
  | 0x29#8 => some (.ldFVx f.x)
  | 0x33#8 => some (.ldBVx f.x)
  | 0x55#8 => some (.storeRegs f.x)
  | 0x65#8 => some (.loadRegs f.x)
  | _ => none

/-- The instruction a word selects, if any: the decoder described after the table of R64. The class is 4 bits
wide, so the last arm stands for no word. -/
def selectInstr (w : Word) : Option Instr :=
  let f := fieldsOf w
  match f.c with
  | 0x0#4 => decodeClass0 w
  | 0x1#4 => some (.jmp f.nnn)
  | 0x2#4 => some (.call f.nnn)
  | 0x3#4 => some (.seImm f.x f.kk)
  | 0x4#4 => some (.sneImm f.x f.kk)
  | 0x5#4 => if f.n = 0x0#4 then some (.seReg f.x f.y) else none
  | 0x6#4 => some (.ldImm f.x f.kk)
  | 0x7#4 => some (.addImm f.x f.kk)
  | 0x8#4 => decodeClass8 f
  | 0x9#4 => if f.n = 0x0#4 then some (.sneReg f.x f.y) else none
  | 0xA#4 => some (.ldI f.nnn)
  | 0xB#4 => some (.jmpV0 f.nnn)
  | 0xC#4 => some (.rnd f.x f.kk)
  | 0xD#4 => some (.drw f.x f.y f.n)
  | 0xE#4 => decodeClassE f
  | 0xF#4 => decodeClassF f
  | _ => none

/-- Decode one instruction word, rejecting by name (R64, R65). -/
def decodeWord (w : Word) : Except DecodeReject Instr :=
  match selectInstr w with
  | some i => .ok i
  | none => .error (.unrecognized w)

/-- Decode from bytes in memory order: the first is the high byte of the word (R47, R60). Answers the
instruction and the bytes that follow it. -/
def decodeBytes : List Byte → Except DecodeReject (Instr × List Byte)
  | hi :: lo :: rest =>
    match decodeWord (wordOf hi lo) with
    | .ok i => .ok (i, rest)
    | .error e => .error e
  | _ => .error .truncated

/-- A word of format NNN (30_encoding section 2). -/
def wordNNN (c : Nibble) (nnn : Imm12) : Word := c ++ nnn

/-- A word of format XKK, and of format X, whose kk is fixed. -/
def wordXKK (c : Nibble) (x : Reg) (kk : Byte) : Word := c ++ (regBits x ++ kk)

/-- A word of format XYN, and of format XY, whose n is fixed. -/
def wordXYN (c : Nibble) (x y : Reg) (n : Nibble) : Word := c ++ (regBits x ++ (regBits y ++ n))

/-- Assemble one instruction: the fixed nibbles of its pattern and the operands in their fields (R70). `SHR` and
`SHL` assemble with y = 0 (R68). -/
def encode : Instr → Word
  | .cls => 0x00E0#16
  | .ret => 0x00EE#16
  | .jmp nnn => wordNNN 0x1 nnn
  | .call nnn => wordNNN 0x2 nnn
  | .seImm x kk => wordXKK 0x3 x kk
  | .sneImm x kk => wordXKK 0x4 x kk
  | .seReg x y => wordXYN 0x5 x y 0x0
  | .ldImm x kk => wordXKK 0x6 x kk
  | .addImm x kk => wordXKK 0x7 x kk
  | .ldReg x y => wordXYN 0x8 x y 0x0
  | .orReg x y => wordXYN 0x8 x y 0x1
  | .andReg x y => wordXYN 0x8 x y 0x2
  | .xorReg x y => wordXYN 0x8 x y 0x3
  | .addReg x y => wordXYN 0x8 x y 0x4
  | .subReg x y => wordXYN 0x8 x y 0x5
  | .shr x => wordXYN 0x8 x 0 0x6
  | .subnReg x y => wordXYN 0x8 x y 0x7
  | .shl x => wordXYN 0x8 x 0 0xE
  | .sneReg x y => wordXYN 0x9 x y 0x0
  | .ldI nnn => wordNNN 0xA nnn
  | .jmpV0 nnn => wordNNN 0xB nnn
  | .rnd x kk => wordXKK 0xC x kk
  | .drw x y n => wordXYN 0xD x y n
  | .skp x => wordXKK 0xE x 0x9E
  | .sknp x => wordXKK 0xE x 0xA1
  | .ldVxDt x => wordXKK 0xF x 0x07
  | .ldVxK x => wordXKK 0xF x 0x0A
  | .ldDtVx x => wordXKK 0xF x 0x15
  | .ldStVx x => wordXKK 0xF x 0x18
  | .addIVx x => wordXKK 0xF x 0x1E
  | .ldFVx x => wordXKK 0xF x 0x29
  | .ldBVx x => wordXKK 0xF x 0x33
  | .storeRegs x => wordXKK 0xF x 0x55
  | .loadRegs x => wordXKK 0xF x 0x65

/-- The bytes of an instruction as memory holds them, high byte first (R47, R70). -/
def encodeBytes (i : Instr) : List Byte := [highByte (encode i), lowByte (encode i)]

/-- The instruction word of a table row given as a number: the low `nbits` bits of `w`, the others 0. -/
def tableWord (nbits w : Nat) : Word := BitVec.ofNat 16 (w % 2 ^ min nbits 16)

/-- What the decoder reads from the instruction whose bits are `w`, laid out as memory stores it: the high byte
at the lower address (R47). -/
def decodeTableWord (nbits w : Nat) : Option Instr :=
  match decodeBytes [highByte (tableWord nbits w), lowByte (tableWord nbits w)] with
  | .ok (i, _) => some i
  | .error _ => none

end Sys2Proof
end

