-- ==== Sys2Proof/Machine/State.lean ====
section
/-! DEFINITION. The machine's state (spec/10_state.md, 20_memory.md), its fatal errors (60_exceptions.md R200), its
outputs (40_step_cycle.md R91) and the state after reset (R30 to R36, R230). -/

namespace Sys2Proof.Machine

/-- A fatal error with its report values, the closed enumeration of R200. -/
inductive FatalError where
  /-- The word fetched at `pc` matches no instruction (R201). -/
  | decodeError (pc w : Word)
  /-- CALL with the stack full (R202). -/
  | stackOverflow (sp : Fin 17)
  /-- RET with the stack empty (R203). -/
  | stackUnderflow (sp : Fin 17)
  /-- A program longer than 3584 bytes was handed to the loader (R204). -/
  | loadError (length : Nat)
  /-- A fetch or data access of the instruction at `pc` would use `addr`, above 4095 (R205). -/
  | addressError (pc : Word) (addr : Nat)
  /-- SKP or SKNP with V[x] above 15 (R206). -/
  | keyIndexError (pc : Word) (value : Byte)
  deriving DecidableEq, Repr

/-- The framebuffer: 2048 one-bit pixels, pixel (row, col) at bit row*64 + col (R19, R152). -/
abbrev Framebuffer := BitVec 2048

/-- One output of a cycle (R91, R214, R216, R90). -/
inductive Output where
  /-- `notify clear`, from CLS (R150). -/
  | clear
  /-- `notify beep`, from the timer phase (R87). -/
  | beep
  /-- `notify update(FB)`, from the display phase (R88). -/
  | update (fb : Framebuffer)
  /-- The report of a fatal error (R90). -/
  | report (e : FatalError)
  deriving DecidableEq, Repr

/-- MEM (R40): (address, byte) cells, addresses strictly rising, no cell equal to what an unlisted address reads
as (`Memory.wf`). -/
abbrev Memory := List Host.Cell

/-- Why the machine stops outside its own state: for no reason. Every error the spec names is entered as R90
describes, which is a next state with HALTED and ERR set (assumption 12). -/
inductive Fault where
  deriving DecidableEq, Repr

/-- Why the model gives an instruction no meaning. -/
inductive Refusal where
  /-- The instruction of that mnemonic has no meaning in the model. Raised by no arm: all 34 have one. Safe. -/
  | notModelled (mnemonic : String)
  deriving DecidableEq, Repr

/-- All the spec gives the machine (R24), and, last, three fields of the model's own. -/
structure State where
  /-- V[0..15] (R10). -/
  v : Vector Byte 16
  /-- I (R15). -/
  i : Word
  /-- PC (R12). -/
  pc : Word
  /-- SP, the number of stack entries in use (R16). -/
  sp : Fin 17
  /-- STACK[0..15] (R16). -/
  stack : Vector Word 16
  /-- DT, the delay timer (R17). -/
  dt : Byte
  /-- ST, the sound timer (R18). -/
  st : Byte
  /-- MEM (R40). -/
  mem : Memory
  /-- FB (R19). -/
  fb : Framebuffer
  /-- KEYS, bit k for key k, 1 = pressed (R20). -/
  keys : BitVec 16
  /-- DRAW (R21). -/
  draw : Bool
  /-- WAITING (R22). -/
  waiting : Bool
  /-- WAIT_X (R22). -/
  waitX : Reg
  /-- HALTED (R23). -/
  halted : Bool
  /-- ERR (R23). -/
  err : Option FatalError
  /-- The model's own: the outputs of the cycle just performed, in order (R91; assumption 15). -/
  out : List Output
  /-- The model's own: the inputs already fixed for the coming cycles, the next cycle's first (assumption 1). -/
  inputs : List CycleInput
  /-- The model's own: the number under which a cycle past `inputs` draws its free inputs (assumption 1). -/
  cycle : Nat
  deriving DecidableEq, Repr

/-- What a meaning and a step answer. -/
abbrev Result := Host.Outcome State Fault Refusal

/-- The state reset constructs when the key source's snapshot is `keys0` (R230, R30 to R36). -/
def State.resetWith (keys0 : BitVec 16) : State where
  v := Vector.replicate 16 0
  i := 0
  pc := Config.resetPc
  sp := 0
  stack := Vector.replicate 16 0
  dt := 0
  st := 0
  mem := []
  fb := 0
  keys := keys0
  draw := false
  waiting := false
  waitX := 0
  halted := false
  err := none
  out := []
  inputs := []
  cycle := 0

/-- The machine right after reset: KEYS holds KEYS0, a free value (R36). -/
def State.reset : State := State.resetWith Config.keys0

end Sys2Proof.Machine
end

