-- ==== Sys2Proof/Machine/Flags.lean ====
section
/-! DEFINITION. The values VF receives (spec/10_state.md R11): the machine's only flag. One definition per flag
rule; the collision flag of DRW is part of the drawing (Ops.lean). -/

namespace Sys2Proof.Machine

/-- A flag as VF holds it: 1 or 0 (R11). -/
def flagByte (f : Bool) : Byte := if f then 1 else 0

/-- ADD: the ninth bit of the sum (R135). -/
def carryOut (a b : Byte) : Bool := decide (a.toNat + b.toNat > 255)

/-- SUB and SUBN: the minuend is strictly greater than the subtrahend; 0 at equality (R136, R138, conflict C10). -/
def noBorrow (minuend subtrahend : Byte) : Bool := decide (minuend.toNat > subtrahend.toNat)

/-- SHR: the bit shifted out, bit 0 (R137). -/
def lowBitOut (a : Byte) : Bool := a.getLsbD 0

/-- SHL: the bit shifted out, bit 7 (R139). -/
def highBitOut (a : Byte) : Bool := a.getLsbD 7

end Sys2Proof.Machine
end

