-- ==== Sys2Proof/Machine/Memory.lean ====
section
/-! DEFINITION. MEM (spec/20_memory.md): what an unlisted address holds (the reset contents, R34, R35), one byte
read and written (R42), and runs of bytes built from them. The bound 4095 is checked by `guardRange` (Ops.lean)
before any of these is used (R43). -/

namespace Sys2Proof.Machine

/-- FONT: 16 glyphs of 5 bytes, glyph d at 5*d (R34). PRESUMED: the spec's default table, which it marks as general
knowledge (G4). Unsafe; assumption 8. -/
def fontTable : List Byte :=
  [0xF0, 0x90, 0x90, 0x90, 0xF0] ++ [0x20, 0x60, 0x20, 0x20, 0x70] ++
  [0xF0, 0x10, 0xF0, 0x80, 0xF0] ++ [0xF0, 0x10, 0xF0, 0x10, 0xF0] ++
  [0x90, 0x90, 0xF0, 0x10, 0x10] ++ [0xF0, 0x80, 0xF0, 0x10, 0xF0] ++
  [0xF0, 0x80, 0xF0, 0x90, 0xF0] ++ [0xF0, 0x10, 0x20, 0x40, 0x40] ++
  [0xF0, 0x90, 0xF0, 0x90, 0xF0] ++ [0xF0, 0x90, 0xF0, 0x10, 0xF0] ++
  [0xF0, 0x90, 0xF0, 0x90, 0x90] ++ [0xE0, 0x90, 0xE0, 0x90, 0xE0] ++
  [0xF0, 0x80, 0x80, 0x80, 0xF0] ++ [0xE0, 0x90, 0x90, 0x90, 0xE0] ++
  [0xF0, 0x80, 0xF0, 0x80, 0xF0] ++ [0xF0, 0x80, 0xF0, 0x80, 0x80]

/-- What an unlisted address reads as: the contents after reset, the font at 0x000..0x04F (R34) and 0 above it
(R35). -/
def Memory.initial (a : Nat) : Byte := fontTable.getD a 0

/-- MEM[a]. -/
def Memory.read : Memory → Nat → Byte
  | [], a => Memory.initial a
  | c :: m, a => if c.1 = a then c.2 else Memory.read m a

/-- The cells without those of address `a`. -/
def Memory.eraseCell (m : Memory) (a : Nat) : Memory := m.filter (fun c => c.1 != a)

/-- Put one cell at its place among cells of rising addresses. -/
def Memory.insertCell (a : Nat) (b : Byte) : Memory → Memory
  | [] => [(a, b)]
  | c :: m => if a < c.1 then (a, b) :: c :: m else c :: Memory.insertCell a b m

/-- MEM[a] <- b (R42), keeping the canonical form: the value an unlisted address reads as is not listed. -/
def Memory.write (m : Memory) (a : Nat) (b : Byte) : Memory :=
  if b = Memory.initial a then m.eraseCell a else (m.eraseCell a).insertCell a b

/-- The bytes at `base`, `base + 1`, ..., `n` of them, in this order (R45). -/
def Memory.readRun (m : Memory) (base n : Nat) : List Byte :=
  (List.range n).map (fun j => m.read (base + j))

/-- Store the bytes at `base`, `base + 1`, ..., in this order (R45, R231). -/
def Memory.writeRun (m : Memory) (base : Nat) : List Byte → Memory
  | [] => m
  | b :: bs => Memory.writeRun (m.write base b) (base + 1) bs

/-- The cells lie at rising addresses from `lo` up, inside MEM, and none holds its unlisted value. -/
def Memory.wfFrom (lo : Nat) : Memory → Bool
  | [] => true
  | c :: m => decide (lo ≤ c.1) && decide (c.1 < Config.memSize) && (c.2 != Memory.initial c.1) &&
      Memory.wfFrom (c.1 + 1) m

/-- The canonical form of MEM. -/
def Memory.wf (m : Memory) : Bool := Memory.wfFrom 0 m

end Sys2Proof.Machine
end

