-- ==== Sys2Proof/Machine/Operands.lean ====
section
/-! DEFINITION. The operand forms (spec/30_encoding.md R61, R63): registers, the immediates, the one addressing
mode I + offset (47_timer_index_memory.md), the key number of SKP and SKNP, the digits of LD B, the random byte. -/

namespace Sys2Proof.Machine

/-- Register VF, the flag output (R11). -/
def vf : Reg := 15

/-- V[x] read as an operand (R10). -/
def State.reg (s : State) (x : Reg) : Byte := s.v[x]

/-- nnn where it meets a 16-bit register: zero-extended (R63). -/
def zext16 (nnn : Imm12) : Word := nnn.setWidth 16

/-- A byte where it meets a 16-bit register: zero-extended (R63). -/
def byteToWord (b : Byte) : Word := b.setWidth 16

/-- The effective address I + offset as an integer, reduced by nothing (R15, R42). -/
def State.address (s : State) (offset : Nat) : Nat := s.i.toNat + offset

/-- The inputs of the present cycle: the first of the schedule, or free ones (R91; assumption 1). -/
def State.input (s : State) : CycleInput := s.inputs.headD (Config.freeInput s.cycle)

/-- KEYS[k] (R20). -/
def State.keyDown (s : State) (k : Nat) : Bool := s.keys.getLsbD k

/-- The byte V[x] receives from the key event k: its index (R82). -/
def keyByte (k : Key) : Byte := BitVec.ofNat 8 k.val

/-- The three decimal digits of a byte, hundreds first (R175). -/
def bcdDigits (b : Byte) : List Byte :=
  [BitVec.ofNat 8 (b.toNat / 100), BitVec.ofNat 8 (b.toNat / 10 % 10), BitVec.ofNat 8 (b.toNat % 10)]

/-- V[0], ..., V[x], the registers a block store writes out (R176). -/
def State.regsUpTo (s : State) (x : Reg) : List Byte := s.v.toList.take (x.val + 1)

/-- The address of the font glyph for a byte: 5 bytes a glyph from address 0, the byte not masked (R174). -/
def glyphAddress (b : Byte) : Word := BitVec.ofNat 16 (b.toNat * 5)

end Sys2Proof.Machine
end

