-- ==== Sys2Proof/Machine/Ops.lean ====
section
/-! DEFINITION. The named operations the meanings are made of: registers and PC, raising a fatal error (the one
shared exception entry, spec/40_step_cycle.md R90), the address check (R43), the call stack (R16), the framebuffer
and the sprite algorithm (R151, R152). -/

namespace Sys2Proof.Machine

/-- V[x] <- b (R10). No register is hard-wired. -/
def State.setReg (s : State) (x : Reg) (b : Byte) : State := { s with v := s.v.set x.val b }

/-- PC <- target (R13). -/
def State.setPc (s : State) (target : Word) : State := { s with pc := target }

/-- PC <- PC + 2 (R13). -/
def State.advance (s : State) : State := s.setPc (s.pc + 2)

/-- PC <- PC + 4 when the condition holds, else PC + 2 (R13, 42_skips.md). -/
def State.skipIf (s : State) (c : Bool) : State := s.setPc (s.pc + if c then 4 else 2)

/-- I <- w (R15). -/
def State.setI (s : State) (w : Word) : State := { s with i := w }

/-- The result to V[x] and then the flag to VF: the flag is written last and wins when x = F (R130). -/
def State.setResultAndFlag (s : State) (x : Reg) (r : Byte) (f : Bool) : State :=
  (s.setReg x r).setReg vf (flagByte f)

/-- The state a fatal error leaves: everything as it was at the start of the cycle, HALTED and ERR set, the report
the only output (R90, R208). -/
def State.halt (s : State) (e : FatalError) : State :=
  { s with halted := true, err := some e, out := [.report e] }

/-- `raise E(info)`: the shared entry of every fatal error (R90). There is no return from it but reset (R209). -/
def raise (e : FatalError) (s : State) : Result := .next (s.halt e)

/-- Check the whole range `base .. base + len - 1` before any effect: if an address of it exceeds 4095, raise
AddressError with the lowest such address, else go on to `done` (R43, R205). -/
def guardRange (base len : Nat) (s done : State) : Result :=
  if len ≠ 0 ∧ base + len > Config.memSize then raise (.addressError s.pc (max base Config.memSize)) s
  else .next done

/-- Check a key number before any effect: above 15 raises KeyIndexError (R160, R161, R206). -/
def guardKey (value : Byte) (s done : State) : Result :=
  if value.toNat > 15 then raise (.keyIndexError s.pc value) s else .next done

/-- Push: STACK[SP] <- w, SP <- SP + 1 (R16). -/
def State.push (s : State) (w : Word) (room : s.sp.val < 16) : State :=
  { s with stack := s.stack.set s.sp.val w, sp := ⟨s.sp.val + 1, Nat.succ_lt_succ room⟩ }

/-- The entry a pop takes: STACK[SP - 1] (R16). -/
def State.top (s : State) (used : 0 < s.sp.val) : Word :=
  s.stack[s.sp.val - 1]'(Nat.lt_of_lt_of_le (Nat.sub_lt used Nat.one_pos) (Nat.le_of_lt_succ s.sp.isLt))

/-- Pop: SP <- SP - 1; the entry keeps its contents (R16). -/
def State.pop (s : State) : State :=
  { s with sp := ⟨s.sp.val - 1, Nat.lt_of_le_of_lt (Nat.sub_le _ _) s.sp.isLt⟩ }

/-- Store bytes from `base` up (R45). -/
def State.store (s : State) (base : Nat) (bytes : List Byte) : State :=
  { s with mem := s.mem.writeRun base bytes }

/-- The registers after a block load: V[0], ..., V[x] hold the bytes from `base` up, the others what they held
(R177). Irreducible for the elaborator's sake only: the kernel evaluates it, and `State.reg_loadRun` says it. -/
@[irreducible] def State.loadedRegs (s : State) (base : Nat) (x : Reg) : Vector Byte 16 :=
  Vector.ofFn (fun j : Reg => if j.val ≤ x.val then s.mem.read (base + j.val) else s.reg j)

/-- V[0], ..., V[x] <- the bytes from `base` up (R177). -/
def State.loadRun (s : State) (base : Nat) (x : Reg) : State := { s with v := s.loadedRegs base x }

/-- The linear index of pixel (row, col) (R19, R152). -/
def pixelIndex (row col : Nat) : Nat := row * Config.columns + col

/-- FB[row][col] (R19). -/
def Framebuffer.pixel (fb : Framebuffer) (row col : Nat) : Bool := fb.getLsbD (pixelIndex row col)

/-- FB[row][col] <- FB[row][col] ^ 1 (R151). -/
def Framebuffer.flip (fb : Framebuffer) (row col : Nat) : Framebuffer :=
  fb ^^^ BitVec.twoPow 2048 (pixelIndex row col)

/-- A drawing in progress: the framebuffer and the collision flag VF (R151). -/
structure Drawing where
  /-- The framebuffer as drawn so far. -/
  fb : Framebuffer
  /-- A pixel that was on has been turned off. -/
  hit : Bool
  deriving DecidableEq, Repr

/-- One bit of a sprite byte, the loop body of R151: if it is 1, its pixel (wrapped on both axes) is flipped, with a
collision if it was on. -/
def drawBit (cx cy yl : Nat) (b : Byte) (d : Drawing) (xl : Nat) : Drawing :=
  if b.getLsbD (7 - xl) then
    { fb := d.fb.flip ((cy + yl) % Config.rows) ((cx + xl) % Config.columns)
      hit := d.hit || d.fb.pixel ((cy + yl) % Config.rows) ((cx + xl) % Config.columns) }
  else d

/-- One sprite byte: xl from 0 to 7, the most significant bit first (R151). -/
def drawRow (cx cy yl : Nat) (b : Byte) (d : Drawing) : Drawing :=
  (List.range 8).foldl (drawBit cx cy yl b) d

/-- The sprite bytes from row offset `yl` on, one row each (R151). -/
def drawRows (cx cy : Nat) : Nat → List Byte → Drawing → Drawing
  | _, [], d => d
  | yl, b :: bs, d => drawRows cx cy (yl + 1) bs (drawRow cx cy yl b d)

/-- The sprite algorithm: the bytes drawn with their top-left pixel at column `cx`, row `cy`; the flag starts at 0
(R151). -/
def drawSprite (cx cy : Nat) (bytes : List Byte) (fb : Framebuffer) : Drawing :=
  drawRows cx cy 0 bytes { fb := fb, hit := false }

end Sys2Proof.Machine
end

