-- ==== Sys2Proof/Machine/Alu.lean ====
section
/-! DEFINITION. The register-to-register ALU group (spec/44_alu.md). Both sources are read before anything is
written, and the flag, where there is one, is written last (R130). The results of load, or, and, xor and subn are
the spec's from general knowledge (G3; assumption 11). -/

namespace Sys2Proof.Machine

/-- LD Vx, Vy (R131): VF not written. -/
def execLdReg (x y : Reg) (s : State) : Result := .next (s.setReg x (s.reg y)).advance

/-- OR Vx, Vy (R132): VF not written. -/
def execOrReg (x y : Reg) (s : State) : Result := .next (s.setReg x (s.reg x ||| s.reg y)).advance

/-- AND Vx, Vy (R133): VF not written. -/
def execAndReg (x y : Reg) (s : State) : Result := .next (s.setReg x (s.reg x &&& s.reg y)).advance

/-- XOR Vx, Vy (R134): VF not written. -/
def execXorReg (x y : Reg) (s : State) : Result := .next (s.setReg x (s.reg x ^^^ s.reg y)).advance

/-- ADD Vx, Vy (R135): VF = carry out. -/
def execAddReg (x y : Reg) (s : State) : Result :=
  .next (s.setResultAndFlag x (s.reg x + s.reg y) (carryOut (s.reg x) (s.reg y))).advance

/-- SUB Vx, Vy (R136): Vx - Vy; VF = 1 when Vx > Vy. -/
def execSubReg (x y : Reg) (s : State) : Result :=
  .next (s.setResultAndFlag x (s.reg x - s.reg y) (noBorrow (s.reg x) (s.reg y))).advance

/-- SHR Vx (R137): the operand is V[x]; y is not read. -/
def execShr (x : Reg) (s : State) : Result :=
  .next (s.setResultAndFlag x (s.reg x >>> 1) (lowBitOut (s.reg x))).advance

/-- SUBN Vx, Vy (R138): Vy - Vx; VF = 1 when Vy > Vx. -/
def execSubnReg (x y : Reg) (s : State) : Result :=
  .next (s.setResultAndFlag x (s.reg y - s.reg x) (noBorrow (s.reg y) (s.reg x))).advance

/-- SHL Vx (R139): the operand is V[x]; y is not read. -/
def execShl (x : Reg) (s : State) : Result :=
  .next (s.setResultAndFlag x (s.reg x <<< 1) (highBitOut (s.reg x))).advance

end Sys2Proof.Machine
end

