-- ==== Sys2Proof/Machine/ControlFlow.lean ====
section
/-! DEFINITION. RET, JMP, CALL, JMP V0 (spec/41_control_flow.md). -/

namespace Sys2Proof.Machine

/-- RET (R100): StackUnderflow when SP = 0; else the popped entry, the address of the CALL, plus 2. -/
def execRet (s : State) : Result :=
  if used : 0 < s.sp.val then .next (s.pop.setPc (s.top used + 2)) else raise (.stackUnderflow s.sp) s

/-- JMP nnn (R101). -/
def execJmp (nnn : Imm12) (s : State) : Result := .next (s.setPc (zext16 nnn))

/-- CALL nnn (R102): StackOverflow when SP = 16; else the address of this CALL is pushed. -/
def execCall (nnn : Imm12) (s : State) : Result :=
  if room : s.sp.val < 16 then .next ((s.push s.pc room).setPc (zext16 nnn)) else raise (.stackOverflow s.sp) s

/-- JMP V0, nnn (R103): the sum in full, not reduced to 12 bits. -/
def execJmpV0 (nnn : Imm12) (s : State) : Result := .next (s.setPc (zext16 nnn + byteToWord (s.reg 0)))

end Sys2Proof.Machine
end

