-- ==== Sys2Proof/Machine/Display.lean ====
section
/-! DEFINITION. CLS and DRW (spec/45_display.md), the only instructions that change the framebuffer. -/

namespace Sys2Proof.Machine

/-- CLS (R150): the framebuffer zeroed and `notify clear` sent; DRAW is not set. -/
def execCls (s : State) : Result := .next { s with fb := 0, out := s.out ++ [Output.clear] }.advance

/-- What DRW draws: the n bytes from I up, at the column V[x] and the row V[y] as they stood before VF is written
(R151). -/
def State.drawn (s : State) (x y : Reg) (n : Nibble) : Drawing :=
  drawSprite (s.reg x).toNat (s.reg y).toNat (s.mem.readRun (s.address 0) n.toNat) s.fb

/-- DRW Vx, Vy, n (R151): AddressError if a sprite byte lies above 4095, before anything is drawn; else the sprite,
VF = collision, DRAW set. -/
def execDrw (x y : Reg) (n : Nibble) (s : State) : Result :=
  guardRange (s.address 0) n.toNat s
    ({ s with fb := (s.drawn x y n).fb, draw := true }.setReg vf (flagByte (s.drawn x y n).hit)).advance

end Sys2Proof.Machine
end

