-- ==== Sys2Proof/Machine/Immediate.lean ====
section
/-! DEFINITION. Immediate loads, add-immediate and random (spec/43_immediate.md). -/

namespace Sys2Proof.Machine

/-- LD Vx, kk (R120). -/
def execLdImm (x : Reg) (kk : Byte) (s : State) : Result := .next (s.setReg x kk).advance

/-- ADD Vx, kk (R121): modulo 256, no flag. -/
def execAddImm (x : Reg) (kk : Byte) (s : State) : Result := .next (s.setReg x (s.reg x + kk)).advance

/-- LD I, nnn (R122). -/
def execLdI (nnn : Imm12) (s : State) : Result := .next (s.setI (zext16 nnn)).advance

/-- RND Vx, kk (R123): this cycle's free random byte, masked. -/
def execRnd (x : Reg) (kk : Byte) (s : State) : Result := .next (s.setReg x (s.input.rnd &&& kk)).advance

end Sys2Proof.Machine
end

