-- ==== Sys2Proof/Machine/Keypad.lean ====
section
/-! DEFINITION. SKP, SKNP and the entry cycle of LD Vx, K (spec/46_keypad.md). The wait cycles are in Cycle.lean. -/

namespace Sys2Proof.Machine

/-- SKP Vx (R160): skip when key V[x] is pressed, as latched at the end of the previous cycle. -/
def execSkp (x : Reg) (s : State) : Result :=
  guardKey (s.reg x) s (s.skipIf (s.keyDown (s.reg x).toNat))

/-- SKNP Vx (R161): skip when key V[x] is not pressed. -/
def execSknp (x : Reg) (s : State) : Result :=
  guardKey (s.reg x) s (s.skipIf (!s.keyDown (s.reg x).toNat))

/-- LD Vx, K (R162), entry cycle: WAITING and WAIT_X set, PC kept. -/
def execLdVxK (x : Reg) (s : State) : Result := .next { s with waiting := true, waitX := x }

end Sys2Proof.Machine
end

