-- ==== Sys2Proof/Machine/Transfer.lean ====
section
/-! DEFINITION. The timer, index and memory transfer group (spec/47_timer_index_memory.md). What Fx07, Fx15, Fx18 and
Fx1E move is the spec's from general knowledge (G2; assumption 10). I is changed by no access (decision D13). -/

namespace Sys2Proof.Machine

/-- LD Vx, DT (R170): DT before this cycle's timer phase. -/
def execLdVxDt (x : Reg) (s : State) : Result := .next (s.setReg x s.dt).advance

/-- LD DT, Vx (R171). -/
def execLdDtVx (x : Reg) (s : State) : Result := .next { s with dt := s.reg x }.advance

/-- LD ST, Vx (R172). -/
def execLdStVx (x : Reg) (s : State) : Result := .next { s with st := s.reg x }.advance

/-- ADD I, Vx (R173): modulo 65536, VF not written. -/
def execAddIVx (x : Reg) (s : State) : Result := .next (s.setI (s.i + byteToWord (s.reg x))).advance

/-- LD F, Vx (R174): I = V[x] * 5, V[x] not masked. -/
def execLdFVx (x : Reg) (s : State) : Result := .next (s.setI (glyphAddress (s.reg x))).advance

/-- LD B, Vx (R175): hundreds, tens and ones of V[x] at I, I + 1, I + 2. -/
def execLdBVx (x : Reg) (s : State) : Result :=
  guardRange (s.address 0) 3 s (s.store (s.address 0) (bcdDigits (s.reg x))).advance

/-- LD [I], Vx (R176): V[0] to V[x] at I upward. -/
def execStoreRegs (x : Reg) (s : State) : Result :=
  guardRange (s.address 0) (x.val + 1) s (s.store (s.address 0) (s.regsUpTo x)).advance

/-- LD Vx, [I] (R177): V[0] to V[x] from I upward. -/
def execLoadRegs (x : Reg) (s : State) : Result :=
  guardRange (s.address 0) (x.val + 1) s (s.loadRun (s.address 0) x).advance

end Sys2Proof.Machine
end

