-- ==== Sys2Proof/Machine/Cycle.lean ====
section
/-! DEFINITION. The phases of a cycle around the execute phase (spec/40_step_cycle.md R80 to R93): fetch, timers,
display, key refresh, the wait cycle; and the load transaction (70_reset_and_hazards.md R231). -/

namespace Sys2Proof.Machine

/-- A cycle begins with no output of its own (R91). -/
def State.begin (s : State) : State := { s with out := [] }

/-- The word at PC, big-endian: the byte at PC is the high byte (R47, R83). Read only where both bytes exist. -/
def State.fetchWord (s : State) : Word := wordOf (s.mem.read s.pc.toNat) (s.mem.read (s.pc.toNat + 1))

/-- A timer counts down and stops at 0 (R17, R18, R86). -/
def countDown (b : Byte) : Byte := if b.toNat > 0 then b - 1 else b

/-- The beep: exactly when the count goes from 1 to 0 (R87). -/
def beepOf (st : Byte) : List Output := if st = 1 then [.beep] else []

/-- Phase 6, the timers (R86, R87). -/
def State.timerPhase (s : State) : State :=
  { s with dt := countDown s.dt, st := countDown s.st, out := s.out ++ beepOf s.st }

/-- Phase 7, the display (R88): one update with the whole framebuffer if DRAW is set, and DRAW cleared. -/
def State.displayPhase (s : State) : State :=
  { s with out := s.out ++ (if s.draw then [.update s.fb] else []), draw := false }

/-- Phase 8, the key refresh (R89), with which the cycle's inputs are used up. -/
def State.keyPhase (s : State) : State :=
  { s with keys := s.input.keysIn, inputs := s.inputs.tail, cycle := s.cycle + 1 }

/-- Phases 6, 7 and 8 of a normal cycle (R80). -/
def State.endCycle (s : State) : State := s.timerPhase.displayPhase.keyPhase

/-- After execute: a fatal error ended the cycle there (R90); else phases 6, 7 and 8. -/
def finishCycle : Result → Result
  | .next t => .next (if t.halted then t else t.endCycle)
  | .fault r => .fault r
  | .refused r => .refused r

/-- Decode and execute the fetched word (R84, R85), or raise DecodeError (R93). -/
def runWord (w : Word) (s : State) : Result :=
  match decodeWord w with
  | .ok i => exec i s
  | .error _ => raise (.decodeError s.pc w) s

/-- Fetch, decode, execute: AddressError when PC or PC + 1 lies above 4095, with the lower of these that does
(R83). -/
def fetchAndRun (s : State) : Result :=
  if s.pc.toNat + 1 < Config.memSize then runWord s.fetchWord s
  else raise (.addressError s.pc (max s.pc.toNat Config.memSize)) s

/-- A normal cycle (R80). -/
def normalCycle (s : State) : Result := finishCycle (fetchAndRun s.begin)

/-- What a wait cycle does with the key event: an event k ends the wait (R82). -/
def State.takeKey (s : State) (event : Option Key) : State :=
  match event with
  | none => s
  | some k => { s.setReg s.waitX (keyByte k) with pc := s.pc + 2, waiting := false }

/-- A wait cycle: the event, then the key refresh, and nothing else (R82). -/
def State.waitCycle (s : State) : State := (s.begin.takeKey s.input.keyEvent).keyPhase

/-- A cycle of a halted machine: nothing (R81). It has no output. -/
def State.haltedCycle (s : State) : State := s.begin

/-- The load transaction, between reset and the first cycle: the bytes verbatim from 0x200 up, or LoadError with MEM
untouched when they are more than 3584 (R231, R204). -/
def load (p : List Byte) (s : State) : State :=
  if wellFormedProgram p then s.store Config.progBase p else s.halt (.loadError p.length)

end Sys2Proof.Machine
end

