-- ==== Sys2Proof/Machine/Step.lean ====
section
/-! DEFINITION. One step of the machine is one cycle (spec/40_step_cycle.md R80). -/

namespace Sys2Proof.Machine

/-- One cycle (R80): halted does nothing (R81), waiting waits (R82), else a normal cycle. -/
def step (s : State) : Host.Outcome State Fault Refusal :=
  if s.halted then .next s.haltedCycle
  else if s.waiting then .next s.waitCycle
  else normalCycle s

/-- `s` made ready to fetch: a cycle that is neither halted nor waiting, at a PC whose two bytes exist. A PC above
0xFFE is replaced by 0x200 (assumption 17). -/
def State.readyToFetch (s : State) : State :=
  { s with halted := false, err := none, waiting := false,
           pc := if s.pc.toNat + 1 < Config.memSize then s.pc else Config.resetPc }

/-- `s` with the instruction whose bits are `w` stored where the next step fetches it, high byte first (R47). -/
def State.withFetchWord (s : State) (nbits w : Nat) : State :=
  let r := s.readyToFetch
  r.store r.pc.toNat [highByte (tableWord nbits w), lowByte (tableWord nbits w)]

end Sys2Proof.Machine
end

