-- ==== Sys2Proof/Safety.lean ====
section
/-! DEFINITION. What a safe run is, and the invariant of the machine (spec/10_state.md R14, R21, R23; 20_memory.md
R54). -/

namespace Sys2Proof.Machine

/-- The machine has met no fatal error (R23). -/
abbrev State.Safe (s : State) : Prop := s.halted = false

/-- Every live stack entry is the address a CALL was fetched from: at most 0xFFE (R14). -/
abbrev State.StackInv (s : State) : Prop := ∀ j : Fin 16, j.val < s.sp.val → s.stack[j].toNat ≤ 0xFFE

/-- PC is at most 0x10FE (R14), and at most 0xFFE while it holds the address of a waiting LD Vx, K (R82). -/
abbrev State.PcInv (s : State) : Prop := s.pc.toNat ≤ 0x10FE ∧ (s.waiting = true → s.pc.toNat ≤ 0xFFE)

/-- The hidden bits at a cycle boundary: DRAW is 0 (R21), HALTED goes with an error record (R23), and a halted
machine does not wait (R90). -/
abbrev State.ControlInv (s : State) : Prop :=
  s.draw = false ∧ s.halted = s.err.isSome ∧ (s.halted = true → s.waiting = false)

/-- What holds at every cycle boundary. -/
structure State.Inv (s : State) : Prop where
  /-- MEM is in its canonical form: 4096 cells, none listed outside (R54). -/
  mem : s.mem.wf = true
  /-- The live stack entries (R14). -/
  stack : s.StackInv
  /-- The program counter (R14). -/
  pc : s.PcInv
  /-- The hidden bits (R21, R23). -/
  control : s.ControlInv

/-- The machine is about to fetch: neither halted nor waiting, and both bytes at PC exist (R80, R83). -/
abbrev State.Fetches (s : State) : Prop := s.halted = false ∧ s.waiting = false ∧ s.pc.toNat ≤ 0xFFE

/-- The cycle from `s` is a normal one in which instruction `i` ran without a fatal error and left `u` for the timer,
display and key phases (R80, R85). -/
structure NormalCycle (s : State) (i : Instr) (u : State) : Prop where
  /-- The cycle fetches. -/
  fetches : s.Fetches
  /-- The word fetched is `i`. -/
  decodes : decodeWord s.fetchWord = .ok i
  /-- The execute phase ends in `u`. -/
  runs : exec i s.begin = .next u
  /-- No fatal error was raised. -/
  goesOn : u.halted = false

/-- The registers an instruction's rule writes in its execute phase, by the access table of 10_state.md section 2
("write V[x]", "write V[0..x]", "write V[15] implicitly"). LD Vx, K writes V[x] in its last wait cycle (R82). -/
def destinations : Instr → List Reg
  | .cls | .ret | .jmp _ | .call _ | .jmpV0 _ => []
  | .seImm _ _ | .sneImm _ _ | .seReg _ _ | .sneReg _ _ | .skp _ | .sknp _ => []
  | .ldImm x _ | .addImm x _ | .rnd x _ | .ldVxDt x => [x]
  | .ldReg x _ | .orReg x _ | .andReg x _ | .xorReg x _ => [x]
  | .addReg x _ | .subReg x _ | .shr x | .subnReg x _ | .shl x => [x, vf]
  | .drw _ _ _ => [vf]
  | .ldI _ | .addIVx _ | .ldFVx _ | .ldDtVx _ | .ldStVx _ => []
  | .ldVxK _ | .ldBVx _ | .storeRegs _ => []
  | .loadRegs x => (List.finRange 16).filter (fun r => r.val ≤ x.val)

/-- The flag an instruction's rule writes to VF on every execution, where it has one (R11, R135 to R139, R151). -/
def flagOf (i : Instr) (s : State) : Option Bool :=
  match i with
  | .addReg x y => some (carryOut (s.reg x) (s.reg y))
  | .subReg x y => some (noBorrow (s.reg x) (s.reg y))
  | .shr x => some (lowBitOut (s.reg x))
  | .subnReg x y => some (noBorrow (s.reg y) (s.reg x))
  | .shl x => some (highBitOut (s.reg x))
  | .drw x y n => some (s.drawn x y n).hit
  | .cls | .ret | .jmp _ | .call _ | .jmpV0 _ => none
  | .seImm _ _ | .sneImm _ _ | .seReg _ _ | .sneReg _ _ | .skp _ | .sknp _ => none
  | .ldImm _ _ | .addImm _ _ | .rnd _ _ | .ldVxDt _ => none
  | .ldReg _ _ | .orReg _ _ | .andReg _ _ | .xorReg _ _ => none
  | .ldI _ | .addIVx _ | .ldFVx _ | .ldDtVx _ | .ldStVx _ => none
  | .ldVxK _ | .ldBVx _ | .storeRegs _ | .loadRegs _ => none

/-- The x field of an instruction, where it has one (R61). -/
def xField : Instr → Option Reg
  | .cls | .ret | .jmp _ | .call _ | .jmpV0 _ | .ldI _ => none
  | .seImm x _ | .sneImm x _ | .seReg x _ | .sneReg x _ | .skp x | .sknp x => some x
  | .ldImm x _ | .addImm x _ | .rnd x _ | .ldVxDt x => some x
  | .ldReg x _ | .orReg x _ | .andReg x _ | .xorReg x _ => some x
  | .addReg x _ | .subReg x _ | .shr x | .subnReg x _ | .shl x => some x
  | .drw x _ _ => some x
  | .addIVx x | .ldFVx x | .ldDtVx x | .ldStVx x => some x
  | .ldVxK x | .ldBVx x | .storeRegs x | .loadRegs x => some x

/-- The bytes an instruction reads or writes as data: the effective address and how many (R45). -/
def dataAccess (i : Instr) (s : State) : Option (Nat × Nat) :=
  match i with
  | .drw _ _ n => some (s.address 0, n.toNat)
  | .ldBVx _ => some (s.address 0, 3)
  | .storeRegs x | .loadRegs x => some (s.address 0, x.val + 1)
  | .cls | .ret | .jmp _ | .call _ | .jmpV0 _ | .ldI _ => none
  | .seImm _ _ | .sneImm _ _ | .seReg _ _ | .sneReg _ _ | .skp _ | .sknp _ => none
  | .ldImm _ _ | .addImm _ _ | .rnd _ _ | .ldVxDt _ => none
  | .ldReg _ _ | .orReg _ _ | .andReg _ _ | .xorReg _ _ => none
  | .addReg _ _ | .subReg _ _ | .shr _ | .subnReg _ _ | .shl _ => none
  | .addIVx _ | .ldFVx _ | .ldDtVx _ | .ldStVx _ | .ldVxK _ => none

/-- The byte at `a` once `len` bytes, the j-th of them `stored j`, have been stored from I up: a stored byte inside that
range, the old byte elsewhere (R45, R50). -/
def State.byteUnderStore (s : State) (len : Nat) (stored : Nat → Byte) (a : Nat) : Byte :=
  if s.i.toNat ≤ a ∧ a < s.i.toNat + len then stored (a - s.i.toNat) else s.mem.read a

/-- The display update notifications among a cycle's outputs (R88). -/
def updatesOf (out : List Output) : List Output :=
  out.filter (fun o => match o with | .update _ => true | .clear | .beep | .report _ => false)

end Sys2Proof.Machine
end

