-- ==== Sys2Proof/Certificates/Slice0/Obligations.lean ====
section
/-! DEFINITION. The statements for the provers. `t = { s with v := t.v, pc := t.pc }` is a frame: `t` is `s` in every
field but V and PC. "derived" statements rest, in the clauses their docstrings name, on the spec's own decisions (D),
inferences or general knowledge (G), or on a choice of the model (log). -/

open Sys2Proof Sys2Proof.Machine

/-! ## Encoding -/

/-- Every instruction, with every operand value its fields admit, decodes from the word and from the bytes it
assembles to, and leaves no byte over (30_encoding.md, fields and assembly). -/
def Obligations.DecodeOfEncodeIsIdentity : Prop :=
  ∀ i : Instr, decodeWord (encode i) = .ok i ∧
    ∀ rest : List Byte, decodeBytes (encodeBytes i ++ rest) = .ok (i, rest)

/-- Every recognized word is the one its instruction assembles to, but for SHR and SHL, whose ignored y field
assembles as 0 (the spec's notation decision D27). -/
def Obligations.EncodeOfDecodeRestoresWord : Prop :=
  ∀ (w : Word) (i : Instr), decodeWord w = .ok i →
    encode i = match i with
      | .shr _ | .shl _ => w &&& 0xFF0F#16
      | _ => w

/-- No word matches two rows of the opcode map. The patterns of 17 rows are the spec's from general knowledge (G1). -/
def Obligations.OpcodeRowsAreDisjoint : Prop :=
  ∀ w : Word, ∀ r₁ ∈ opcodeTable, ∀ r₂ ∈ opcodeTable, r₁.selects w = true → r₂.selects w = true → r₁ = r₂

/-- The decoder answers the instruction of the row a word matches, and rejects, by name, exactly the words that match
none. The patterns of 17 rows are the spec's from general knowledge (G1). -/
def Obligations.DecoderFollowsOpcodeTable : Prop :=
  ∀ w : Word,
    (∀ r ∈ opcodeTable, r.selects w = true → ∃ i, decodeWord w = .ok i ∧ i.mnemonic = r.mnemonic) ∧
    (wellFormedWord w = false → decodeWord w = .error (.unrecognized w))

/-- The rejected words are exactly those the spec lists class by class (the spec's decision D16: the unused nibble of
5xyN and 9xyN must be 0, class 0 has two members). -/
def Obligations.UnrecognizedWordsAreTheListedOnes : Prop :=
  ∀ w : Word,
    decodeWord w = .error (.unrecognized w) ↔
      ((w.toNat / 4096 = 0 ∧ w.toNat ≠ 0x00E0 ∧ w.toNat ≠ 0x00EE) ∨
       (w.toNat / 4096 = 5 ∧ w.toNat % 16 ≠ 0) ∨
       (w.toNat / 4096 = 8 ∧ w.toNat % 16 ∈ [0x8, 0x9, 0xA, 0xB, 0xC, 0xD, 0xF]) ∨
       (w.toNat / 4096 = 9 ∧ w.toNat % 16 ≠ 0) ∨
       (w.toNat / 4096 = 0xE ∧ w.toNat % 256 ∉ [0x9E, 0xA1]) ∨
       (w.toNat / 4096 = 0xF ∧ w.toNat % 256 ∉ [0x07, 0x0A, 0x15, 0x18, 0x1E, 0x29, 0x33, 0x55, 0x65]))

/-- R61 and R62: the six fields are the named bit-slices of the word, for every word, and put together again they
give the word back. -/
def Obligations.FieldsAreSlicesThatReassemble : Prop :=
  ∀ w : Word,
    ((fieldsOf w).c.toNat = w.toNat / 4096 ∧ (fieldsOf w).x.val = w.toNat / 256 % 16 ∧
     (fieldsOf w).y.val = w.toNat / 16 % 16 ∧ (fieldsOf w).n.toNat = w.toNat % 16 ∧
     (fieldsOf w).kk.toNat = w.toNat % 256 ∧ (fieldsOf w).nnn.toNat = w.toNat % 4096) ∧
    (w.toNat = (fieldsOf w).c.toNat <<< 12 ||| (fieldsOf w).nnn.toNat ∧
     (fieldsOf w).nnn.toNat = (fieldsOf w).x.val <<< 8 ||| (fieldsOf w).kk.toNat ∧
     (fieldsOf w).kk.toNat = (fieldsOf w).y.val <<< 4 ||| (fieldsOf w).n.toNat)

/-- A few words of the spec's examples decode to the instructions they stand for, and a few unrecognized ones are
rejected. Of the words, 6005, 7003, 1200 and 220C rest on patterns the spec has from general knowledge (G1, log 9), and
the rejection of 0000 and 5121 on its decision D16 (log 22). -/
def Obligations.SampleWordsDecode : Prop :=
  decodeWord 0x6005 = .ok (.ldImm 0 5) ∧ decodeWord 0x7003 = .ok (.addImm 0 3) ∧
  decodeWord 0x1200 = .ok (.jmp 0x200) ∧ decodeWord 0x220C = .ok (.call 0x20C) ∧
  decodeWord 0x8124 = .ok (.addReg 1 2) ∧ decodeWord 0xD012 = .ok (.drw 0 1 2) ∧
  decodeWord 0xE29E = .ok (.skp 2) ∧ decodeWord 0xF333 = .ok (.ldBVx 3) ∧
  decodeWord 0x9120 = .ok (.sneReg 1 2) ∧ decodeWord 0xFFFF = .error (.unrecognized 0xFFFF) ∧
  decodeWord 0x0000 = .error (.unrecognized 0) ∧ decodeWord 0x5121 = .error (.unrecognized 0x5121)

/-! ## The cycle -/

/-- A step of a machine that fetches runs the decoded instruction: the instruction executes, to a next state, on the
state at the cycle's start (its outputs emptied), and then, unless it raised a fatal error, come the timer, display
and key phases. -/
def Obligations.StepRunsTheDecodedInstruction : Prop :=
  ∀ (s : State) (i : Instr), s.Fetches →
    decodeWord (wordOf (s.mem.read s.pc.toNat) (s.mem.read (s.pc.toNat + 1))) = .ok i →
    ∃ u, exec i { s with out := [] } = .next u ∧
      (u.halted = false → step s = .next u.timerPhase.displayPhase.keyPhase) ∧
      (u.halted = true → step s = .next u)

/-- A cycle of a halted machine changes nothing and has no output (the spec's decision D28). -/
def Obligations.HaltedCycleDoesNothing : Prop :=
  ∀ s : State, s.halted = true → step s = .next { s with out := [] }

/-- A wait cycle without a key event changes KEYS alone; one with the event k writes k to V[WAIT_X], advances PC past
the instruction and ends the wait; neither has an output. That KEYS is refreshed is the spec's decision D18. `inputs`
and `cycle` are the model's own supply of inputs (log 1). -/
def Obligations.WaitCycleOnlyTakesTheKey : Prop :=
  ∀ s : State, s.halted = false → s.waiting = true →
    (s.input.keyEvent = none →
      step s = .next { s with keys := s.input.keysIn, out := [], inputs := s.inputs.tail, cycle := s.cycle + 1 }) ∧
    (∀ k, s.input.keyEvent = some k → ∃ t, step s = .next t ∧
      t = { s with v := t.v, pc := s.pc + 2, waiting := false, keys := s.input.keysIn, out := [],
                   inputs := s.inputs.tail, cycle := s.cycle + 1 } ∧
      (t.reg s.waitX).toNat = k.val ∧ ∀ r, r ≠ s.waitX → t.reg r = s.reg r)

/-- The whole wait: after any number of wait cycles without an event and then one with the event k, the machine goes
on after the LD Vx, K with k in the register, the timers, memory, framebuffer and stack untouched (decision D18: the
completion is a wait cycle of its own). -/
def Obligations.AwaitKeyLastsUntilTheEvent : Prop :=
  ∀ (s : State) (idle : List CycleInput) (last : CycleInput) (rest : List CycleInput) (k : Key),
    s.halted = false → s.waiting = true → (∀ c ∈ idle, c.keyEvent = none) → last.keyEvent = some k →
    s.inputs = idle ++ last :: rest →
    ∃ t, core.run (idle.length + 1) s = .next t ∧
      t = { s with v := t.v, pc := s.pc + 2, waiting := false, keys := last.keysIn, out := [],
                   inputs := rest, cycle := s.cycle + (idle.length + 1) } ∧
      (t.reg s.waitX).toNat = k.val ∧ ∀ r, r ≠ s.waitX → t.reg r = s.reg r

/-- A fetch at a PC above 0xFFE raises AddressError with the lower of PC, PC + 1 that lies above 4095, and changes
nothing else (the spec's decisions D10, D19). -/
def Obligations.FetchAboveMemoryRaisesAddressError : Prop :=
  ∀ s : State, s.halted = false → s.waiting = false → s.pc.toNat > 0xFFE →
    step s = .next { s with
      halted := true
      err := some (.addressError s.pc (if s.pc.toNat > 0xFFF then s.pc.toNat else s.pc.toNat + 1))
      out := [.report (.addressError s.pc (if s.pc.toNat > 0xFFF then s.pc.toNat else s.pc.toNat + 1))] }

/-- A fetched word that matches no instruction raises DecodeError(PC, w), PC and every register unchanged; so does
FF FF. That memory, the framebuffer, the timers and KEYS stay as well is the spec's decision D19 (log 12). -/
def Obligations.UnrecognizedWordRaisesDecodeError : Prop :=
  ∀ s : State, s.Fetches →
    ((∀ i, decodeWord s.fetchWord ≠ .ok i) →
      step s = .next { s with halted := true, err := some (.decodeError s.pc s.fetchWord),
                              out := [.report (.decodeError s.pc s.fetchWord)] }) ∧
    (s.mem.read s.pc.toNat = 0xFF → s.mem.read (s.pc.toNat + 1) = 0xFF →
      step s = .next { s with halted := true, err := some (.decodeError s.pc 0xFFFF),
                              out := [.report (.decodeError s.pc 0xFFFF)] })

/-- After execute, in every normal cycle without a fatal error, DT and ST each go down by one and stop at 0
(natural-number subtraction), acting on what the instruction has just written; a cycle that is halted, waiting or
ends in a fatal error leaves both alone (for the last three: conflict C2 and the spec's decisions D28, D19). -/
def Obligations.TimersCountDownOncePerNormalCycle : Prop :=
  (∀ (s u : State) (i : Instr), NormalCycle s i u → ∃ t, step s = .next t ∧
    t.dt.toNat = u.dt.toNat - 1 ∧ t.st.toNat = u.st.toNat - 1) ∧
  (∀ s t : State, step s = .next t → s.halted = true ∨ s.waiting = true ∨ t.halted = true →
    t.dt = s.dt ∧ t.st = s.st)

/-- A normal cycle emits exactly one beep when ST stands at 1 before its decrement, and none otherwise; no other
cycle emits one: not a halted one (the spec's decision D28, log 21), a wait cycle (conflict C2, decision D18, log 20)
or one that ends in a fatal error (decision D19, log 12). -/
def Obligations.BeepExactlyWhenSoundTimerReachesZero : Prop :=
  (∀ (s u : State) (i : Instr), NormalCycle s i u → ∃ t, step s = .next t ∧
    t.out.count .beep = if u.st = 1 then 1 else 0) ∧
  (∀ s t : State, step s = .next t → s.halted = true ∨ s.waiting = true ∨ t.halted = true → Output.beep ∉ t.out)

/-- Started with DRAW = 0, the execute phase sets DRAW exactly when it runs DRW; the display phase then sends
exactly one update, carrying the whole framebuffer as it stands, and clears DRAW, and sends none otherwise; CLS sends
its clear and no update (that CLS does not set DRAW is the spec's decision D26). -/
def Obligations.DisplayUpdateExactlyAfterDrw : Prop :=
  ∀ (s u : State) (i : Instr), NormalCycle s i u → s.draw = false →
    (u.draw = true ↔ ∃ x y n, i = .drw x y n) ∧
    ∃ t, step s = .next t ∧ t.draw = false ∧ t.fb = u.fb ∧ (i = .cls → Output.clear ∈ t.out) ∧
      updatesOf t.out = match i with
        | .drw _ _ _ => [.update t.fb]
        | _ => []

/-- Every normal cycle and every wait cycle (for the latter the spec's decision D18, log 20) ends with KEYS holding the
cycle's `keys_in`, all 16 at once; a halted cycle (decision D28, log 21) and one that ends in a fatal error (decision
D19, log 12) leave KEYS alone. -/
def Obligations.KeysAreRefreshedOncePerCycle : Prop :=
  ∀ s t : State, step s = .next t →
    (s.halted = false → t.halted = false → t.keys = s.input.keysIn) ∧
    (s.halted = true ∨ t.halted = true → t.keys = s.keys)

/-- A normal cycle's outputs come in the order clear, beep, update, each at most once, clear only from CLS (the
spec's decision D25 for the order). -/
def Obligations.OutputsComeInOrder : Prop :=
  ∀ (s u : State) (i : Instr), NormalCycle s i u → s.draw = false → ∃ t, step s = .next t ∧
    t.out = (match i with | .cls => [.clear] | _ => []) ++ (if u.st = 1 then [.beep] else []) ++
      (match i with | .drw _ _ _ => [.update u.fb] | _ => [])

/-- Every fatal error is precise: a cycle that ends in one leaves every piece of state as it was at its start, sets
HALTED and ERR, and its report is its only output (the spec's decision D19 for the errors but DecodeError). -/
def Obligations.FatalErrorsArePrecise : Prop :=
  ∀ s t : State, s.halted = false → step s = .next t → t.halted = true →
    ∃ e, t = { s with halted := true, err := some e, out := [.report e] }

/-- Every fatal error of a cycle comes from the cause the spec lists for it, with the report values it lists, and no
cycle raises LoadError (AddressError and KeyIndexError are the spec's decisions D10, D17, D33). -/
def Obligations.ErrorsComeOnlyFromTheirCauses : Prop :=
  ∀ (s t : State) (e : FatalError), s.halted = false → step s = .next t → t.halted = true → t.err = some e →
    match e with
    | .decodeError pc w => s.Fetches ∧ pc = s.pc ∧ w = s.fetchWord ∧ ∀ i, decodeWord w ≠ .ok i
    | .stackOverflow sp => s.Fetches ∧ sp.val = 16 ∧ s.sp.val = 16 ∧ ∃ nnn, decodeWord s.fetchWord = .ok (.call nnn)
    | .stackUnderflow sp => s.Fetches ∧ sp.val = 0 ∧ s.sp.val = 0 ∧ decodeWord s.fetchWord = .ok .ret
    | .loadError _ => False
    | .addressError pc a => pc = s.pc ∧
        ((s.pc.toNat > 0xFFE ∧ a = max s.pc.toNat 4096) ∨
         (s.Fetches ∧ ∃ i base len, decodeWord s.fetchWord = .ok i ∧ dataAccess i s = some (base, len) ∧ len ≠ 0 ∧
           base + len - 1 > 4095 ∧ a = max base 4096))
    | .keyIndexError pc value => s.Fetches ∧ pc = s.pc ∧ value.toNat > 15 ∧
        ∃ x, s.reg x = value ∧ (decodeWord s.fetchWord = .ok (.skp x) ∨ decodeWord s.fetchWord = .ok (.sknp x))

/-- The machine never stops but by a fatal error, which is a state of its own: every step answers a next state. -/
def Obligations.EveryStepAnswersANextState : Prop := ∀ s : State, ∃ t, step s = .next t

/-! ## Invariants, reset and load -/

/-- Every step keeps the invariant: MEM canonical, the live stack entries at most 0xFFE, PC at most 0x10FE, DRAW 0 at
the cycle boundary, HALTED exactly with an error record. -/
def Obligations.EveryStepKeepsTheInvariant : Prop :=
  ∀ s t : State, s.Inv → step s = .next t → t.Inv

/-- The state after reset meets the invariant, whatever the first key snapshot. -/
def Obligations.ResetMeetsTheInvariant : Prop :=
  (∀ keys0, (State.resetWith keys0).Inv) ∧ State.reset.Inv

/-- The state after reset and load meets the invariant, for every program, the overlong ones too. -/
def Obligations.LoadedMachineMeetsTheInvariant : Prop :=
  ∀ (p : List Byte) (keys0 : BitVec 16), (load p (State.resetWith keys0)).Inv

/-- Load copies the program verbatim from 0x200 up and writes nothing else. -/
def Obligations.LoadPlacesTheProgramVerbatim : Prop :=
  ∀ (p : List Byte) (s : State), p.length ≤ 3584 → ∃ t, load p s = t ∧ t = { s with mem := t.mem } ∧
    (∀ j (h : j < p.length), t.mem.read (0x200 + j) = p[j]) ∧
    (∀ a, a < 0x200 ∨ 0x200 + p.length ≤ a → t.mem.read a = s.mem.read a)

/-- A program of more than 3584 bytes is a fatal LoadError with its length, no byte of it written, the machine
halted before its first cycle; a length of exactly 3584 and a length of 0 are accepted (the reported length is the
spec's decision D33). -/
def Obligations.OverlongProgramRaisesLoadError : Prop :=
  ∀ (p : List Byte) (s : State),
    (p.length > 3584 → load p s =
      { s with halted := true, err := some (.loadError p.length), out := [.report (.loadError p.length)] }) ∧
    (p.length = 3584 ∨ p.length = 0 → (load p s).halted = s.halted ∧ (load p s).err = s.err)

/-- R31: after reset PC = 0x200, and the first instruction word is made of the first two bytes of the loaded
program. -/
def Obligations.ResetPcIsTheFirstLoadedWord : Prop :=
  ∀ (keys0 : BitVec 16) (b₀ b₁ : Byte) (rest : List Byte), rest.length + 2 ≤ 3584 →
    (State.resetWith keys0).pc.toNat = 0x200 ∧
    (load (b₀ :: b₁ :: rest) (State.resetWith keys0)).pc.toNat = 0x200 ∧
    (load (b₀ :: b₁ :: rest) (State.resetWith keys0)).fetchWord = wordOf b₀ b₁

/-- The values after reset that the spec decides: V, I, SP, the stack, the timers and the framebuffer 0 (D1 to D5), the
hidden bits clear, KEYS the given snapshot (D6), no output; memory the 16 glyphs, glyph d at 5 * d (the spec's default
bytes from general knowledge, G4, D8; log 8), and 0 above them (D7). -/
def Obligations.ResetLeavesTheDecidedValues : Prop :=
  ∀ keys0 : BitVec 16, let s := State.resetWith keys0
    (∀ r, s.reg r = 0) ∧ s.i = 0 ∧ s.sp = 0 ∧ (∀ j : Fin 16, s.stack[j] = 0) ∧ s.dt = 0 ∧ s.st = 0 ∧
    (∀ row < 32, ∀ col < 64, s.fb.pixel row col = false) ∧ s.keys = keys0 ∧ s.draw = false ∧ s.waiting = false ∧
    s.halted = false ∧ s.err = none ∧ s.out = [] ∧
    (let glyph := fun d => (List.range 5).map (fun r => s.mem.read (5 * d + r))
     glyph 0x0 = [0xF0, 0x90, 0x90, 0x90, 0xF0] ∧ glyph 0x1 = [0x20, 0x60, 0x20, 0x20, 0x70] ∧
     glyph 0x2 = [0xF0, 0x10, 0xF0, 0x80, 0xF0] ∧ glyph 0x3 = [0xF0, 0x10, 0xF0, 0x10, 0xF0] ∧
     glyph 0x4 = [0x90, 0x90, 0xF0, 0x10, 0x10] ∧ glyph 0x5 = [0xF0, 0x80, 0xF0, 0x10, 0xF0] ∧
     glyph 0x6 = [0xF0, 0x80, 0xF0, 0x90, 0xF0] ∧ glyph 0x7 = [0xF0, 0x10, 0x20, 0x40, 0x40] ∧
     glyph 0x8 = [0xF0, 0x90, 0xF0, 0x90, 0xF0] ∧ glyph 0x9 = [0xF0, 0x90, 0xF0, 0x10, 0xF0] ∧
     glyph 0xA = [0xF0, 0x90, 0xF0, 0x90, 0x90] ∧ glyph 0xB = [0xE0, 0x90, 0xE0, 0x90, 0xE0] ∧
     glyph 0xC = [0xF0, 0x80, 0x80, 0x80, 0xF0] ∧ glyph 0xD = [0xE0, 0x90, 0x90, 0x90, 0xE0] ∧
     glyph 0xE = [0xF0, 0x80, 0xF0, 0x80, 0xF0] ∧ glyph 0xF = [0xF0, 0x80, 0xF0, 0x80, 0x80]) ∧
    (∀ a, 0x50 ≤ a → s.mem.read a = 0)

/-- Without a program the first cycle fetches 0x0000 at 0x200 and raises DecodeError (the spec's derived case). -/
def Obligations.EmptyMachineRaisesDecodeErrorAt0x200 : Prop :=
  ∀ keys0 : BitVec 16, ∃ t, step (State.resetWith keys0) = .next t ∧ t.err = some (.decodeError 0x200 0) ∧
    t.halted = true ∧ t.pc = 0x200

/-! ## What only some instructions may write -/

/-- Every register but those the access table of 10_state.md lists for an instruction keeps its value in the execute
phase, for every instruction and every state. -/
def Obligations.OnlyDestinationRegistersChange : Prop :=
  ∀ (i : Instr) (s t : State) (r : Reg), exec i s = .next t → r ∉ destinations i → t.reg r = s.reg r

/-- ADD, SUB, SUBN, SHR, SHL and DRW leave their flag, 0 or 1, in VF whenever they execute, also when they name VF
as their destination x; no other instruction changes VF unless its x field is F, neither in its execute phase nor, for
LD Vx, K, in the wait cycles that follow (where DRW names VF as a coordinate, the spec's decision D20 says which value
it draws at). -/
def Obligations.VfIsTheFlagOutput : Prop :=
  (∀ (i : Instr) (s t : State), s.halted = false → exec i s = .next t → t.halted = false →
    (∀ f, flagOf i s = some f → t.reg vf = if f then 1 else 0) ∧
    (flagOf i s = none → xField i ≠ some vf → t.reg vf = s.reg vf)) ∧
  (∀ s t : State, s.waiting = true → s.waitX ≠ vf → step s = .next t → t.reg vf = s.reg vf)

/-- The framebuffer is changed by CLS and DRW alone, and I by LD I, ADD I and LD F alone; in particular no access that
uses I changes it (the spec's decision D13). -/
def Obligations.FramebufferAndIndexHaveFewWriters : Prop :=
  ∀ (i : Instr) (s t : State), exec i s = .next t →
    (t.fb ≠ s.fb → i = .cls ∨ ∃ x y n, i = .drw x y n) ∧
    (t.i ≠ s.i → (∃ nnn, i = .ldI nnn) ∨ (∃ x, i = .addIVx x) ∨ (∃ x, i = .ldFVx x))

/-- A byte of MEM changes only if it lies in the bytes LD B, Vx or LD [I], Vx stores to: I to I + 2, or I to I + x. -/
def Obligations.OnlyLdBAndStoreChangeMemory : Prop :=
  ∀ (i : Instr) (s t : State) (a : Nat), exec i s = .next t → t.mem.read a ≠ s.mem.read a →
    (∃ x, i = .ldBVx x ∧ s.i.toNat ≤ a ∧ a ≤ s.i.toNat + 2) ∨
    (∃ x, i = .storeRegs x ∧ s.i.toNat ≤ a ∧ a ≤ s.i.toNat + x.val)

/-- SP is changed by CALL and RET alone, a stack entry by CALL alone, and then only the one at SP. -/
def Obligations.OnlyCallAndRetChangeTheStack : Prop :=
  ∀ (i : Instr) (s t : State), exec i s = .next t →
    (t.sp ≠ s.sp → (∃ nnn, i = .call nnn) ∨ i = .ret) ∧
    (∀ j : Fin 16, t.stack[j] ≠ s.stack[j] → (∃ nnn, i = .call nnn) ∧ j.val = s.sp.val)

/-- The execute phase of no instruction writes KEYS; DT is written by LD DT, Vx alone, ST by LD ST, Vx alone, WAITING
and WAIT_X by LD Vx, K alone, DRAW by DRW alone; the model's supply of inputs is left alone (log 1). -/
def Obligations.TimersKeysAndHiddenBitsHaveOneWriter : Prop :=
  ∀ (i : Instr) (s t : State), exec i s = .next t →
    t.keys = s.keys ∧ t.inputs = s.inputs ∧ t.cycle = s.cycle ∧
    (t.dt ≠ s.dt → ∃ x, i = .ldDtVx x) ∧ (t.st ≠ s.st → ∃ x, i = .ldStVx x) ∧
    (t.waiting ≠ s.waiting ∨ t.waitX ≠ s.waitX → ∃ x, i = .ldVxK x) ∧
    (t.draw ≠ s.draw → ∃ x y n, i = .drw x y n)

/-! ## Control flow and skips -/

/-- R101: JMP nnn puts nnn in PC and changes nothing else. -/
def Obligations.JmpPutsNnnInPc : Prop :=
  ∀ (nnn : Imm12) (s : State), ∃ t, exec (.jmp nnn) s = .next t ∧ t = { s with pc := t.pc } ∧ t.pc.toNat = nnn.toNat

/-- JMP V0, nnn puts the full sum of nnn and V[0] in PC and changes nothing else (no reduction modulo 4096: the
spec's decision D10). -/
def Obligations.JmpV0PutsTheFullSumInPc : Prop :=
  ∀ (nnn : Imm12) (s : State), ∃ t, exec (.jmpV0 nnn) s = .next t ∧ t = { s with pc := t.pc } ∧
    t.pc.toNat = nnn.toNat + (s.reg 0).toNat

/-- With room on the stack CALL pushes its own address, and PC is nnn; with SP = 16 it raises StackOverflow(16) and
changes nothing else (which entry SP names is the spec's decision D9, precise errors its decision D19). -/
def Obligations.CallPushesItsOwnAddress : Prop :=
  ∀ (nnn : Imm12) (s : State),
    (s.sp.val < 16 → ∃ t, exec (.call nnn) s = .next t ∧ t = { s with pc := t.pc, sp := t.sp, stack := t.stack } ∧
      t.pc.toNat = nnn.toNat ∧ t.sp.val = s.sp.val + 1 ∧
      ∀ j : Fin 16, t.stack[j] = if j.val = s.sp.val then s.pc else s.stack[j]) ∧
    (s.sp.val = 16 → exec (.call nnn) s = .next { s with
      halted := true, err := some (.stackOverflow 16), out := [.report (.stackOverflow 16)] })

/-- With an entry on the stack RET pops it and puts it plus 2 in PC, the entries keeping their contents, and the
new PC at most 0x1000 where the live entries are addresses a CALL was fetched from; with SP = 0 it raises
StackUnderflow(0) and changes nothing else (which entry SP names, and that it keeps its contents, is the spec's decision
D9, precise errors its decision D19). -/
def Obligations.RetPopsTheCallAddressPlusTwo : Prop :=
  ∀ s : State,
    (∀ j : Fin 16, s.sp.val = j.val + 1 → ∃ t, exec .ret s = .next t ∧ t = { s with pc := t.pc, sp := t.sp } ∧
      t.sp.val = j.val ∧ t.pc = s.stack[j] + 2 ∧ (s.StackInv → t.pc.toNat ≤ 0x1000)) ∧
    (s.sp.val = 0 → exec .ret s = .next { s with
      halted := true, err := some (.stackUnderflow 0), out := [.report (.stackUnderflow 0)] })

/-- A RET that finds the stack as a CALL left it resumes after that CALL, the stack as before the CALL. -/
def Obligations.RetAfterCallResumesAfterTheCall : Prop :=
  ∀ (nnn : Imm12) (s u w : State), s.sp.val < 16 → exec (.call nnn) s = .next u →
    w.sp = u.sp → w.stack = u.stack →
    ∃ t, exec .ret w = .next t ∧ t.pc = s.pc + 2 ∧ t.sp = s.sp ∧
      ∀ j : Fin 16, j.val < s.sp.val → t.stack[j] = s.stack[j]

/-- R110 to R113: the four skips on registers advance PC by 4 when their condition holds and by 2 when it does not,
and change nothing else. -/
def Obligations.RegisterSkipsAdvanceByFourOrTwo : Prop :=
  ∀ (x y : Reg) (kk : Byte) (s : State),
    exec (.seImm x kk) s = .next { s with pc := if s.reg x = kk then s.pc + 4 else s.pc + 2 } ∧
    exec (.sneImm x kk) s = .next { s with pc := if s.reg x ≠ kk then s.pc + 4 else s.pc + 2 } ∧
    exec (.seReg x y) s = .next { s with pc := if s.reg x = s.reg y then s.pc + 4 else s.pc + 2 } ∧
    exec (.sneReg x y) s = .next { s with pc := if s.reg x ≠ s.reg y then s.pc + 4 else s.pc + 2 }

/-! ## Immediate loads, add-immediate, random -/

/-- R120 and R121: LD Vx, kk puts kk in V[x]; ADD Vx, kk adds kk to V[x] modulo 256 and sets no flag; every other
register, VF among them, and everything else is unchanged, and PC goes on by 2. -/
def Obligations.ImmediateLoadAndAdd : Prop :=
  ∀ (x : Reg) (kk : Byte) (s : State),
    (∃ t, exec (.ldImm x kk) s = .next t ∧ t = { s with v := t.v, pc := s.pc + 2 } ∧
      t.reg x = kk ∧ ∀ r, r ≠ x → t.reg r = s.reg r) ∧
    (∃ t, exec (.addImm x kk) s = .next t ∧ t = { s with v := t.v, pc := s.pc + 2 } ∧
      (t.reg x).toNat = ((s.reg x).toNat + kk.toNat) % 256 ∧ ∀ r, r ≠ x → t.reg r = s.reg r)

/-- R122 and R174: LD I, nnn puts nnn in I; LD F, Vx puts V[x] * 5 in I, V[x] not masked; nothing else but PC
changes. -/
def Obligations.IndexLoads : Prop :=
  ∀ (nnn : Imm12) (x : Reg) (s : State),
    (∃ t, exec (.ldI nnn) s = .next t ∧ t = { s with i := t.i, pc := s.pc + 2 } ∧ t.i.toNat = nnn.toNat) ∧
    (∃ t, exec (.ldFVx x) s = .next t ∧ t = { s with i := t.i, pc := s.pc + 2 } ∧
      t.i.toNat = (s.reg x).toNat * 5)

/-- RND Vx, kk puts the cycle's random byte, masked by kk, in V[x], whatever byte the input holds (a free input of each
execution: the spec's decision D21; the schedule is the model's, log 1). -/
def Obligations.RndMasksTheFreeByte : Prop :=
  ∀ (x : Reg) (kk : Byte) (s : State),
    (∃ t, exec (.rnd x kk) s = .next t ∧ t = { s with v := t.v, pc := s.pc + 2 } ∧
      t.reg x = s.input.rnd &&& kk ∧ ∀ r, r ≠ x → t.reg r = s.reg r) ∧
    (∀ (b : Byte) (keysIn : BitVec 16) (event : Option Key) (rest : List CycleInput),
      ∃ t, exec (.rnd x kk) { s with inputs := ⟨keysIn, event, b⟩ :: rest } = .next t ∧ t.reg x = b &&& kk)

/-! ## The ALU group -/

/-- LD, OR, AND, XOR of two registers leave their result in V[x] and nothing else but PC changed, VF untouched (the
results are the spec's from general knowledge, G3; VF untouched is its decision D15). -/
def Obligations.LogicAndCopyLeaveVfAlone : Prop :=
  ∀ (x y : Reg) (s : State) (i : Instr) (result : Byte),
    (i = .ldReg x y ∧ result = s.reg y) ∨ (i = .orReg x y ∧ result = s.reg x ||| s.reg y) ∨
    (i = .andReg x y ∧ result = s.reg x &&& s.reg y) ∨ (i = .xorReg x y ∧ result = s.reg x ^^^ s.reg y) →
    ∃ t, exec i s = .next t ∧ t = { s with v := t.v, pc := s.pc + 2 } ∧ t.reg x = result ∧
      ∀ r, r ≠ x → t.reg r = s.reg r

/-- R135: ADD Vx, Vy leaves the sum modulo 256 in V[x] and the carry in VF, the flag winning when x = F; nothing else
but PC changes. -/
def Obligations.AddLeavesSumAndCarry : Prop :=
  ∀ (x y : Reg) (s : State), ∃ t, exec (.addReg x y) s = .next t ∧ t = { s with v := t.v, pc := s.pc + 2 } ∧
    (x ≠ vf → (t.reg x).toNat = ((s.reg x).toNat + (s.reg y).toNat) % 256) ∧
    (t.reg vf).toNat = (if (s.reg x).toNat + (s.reg y).toNat > 255 then 1 else 0) ∧
    ∀ r, r ≠ x → r ≠ vf → t.reg r = s.reg r

/-- R136: SUB Vx, Vy leaves V[x] - V[y] modulo 256 in V[x], and VF = 1 exactly when V[x] > V[y], the flag winning when
x = F; nothing else but PC changes. -/
def Obligations.SubLeavesDifferenceAndNoBorrow : Prop :=
  ∀ (x y : Reg) (s : State), ∃ t, exec (.subReg x y) s = .next t ∧ t = { s with v := t.v, pc := s.pc + 2 } ∧
    (x ≠ vf → (t.reg x).toNat = ((s.reg x).toNat + 256 - (s.reg y).toNat) % 256) ∧
    (t.reg vf).toNat = (if (s.reg x).toNat > (s.reg y).toNat then 1 else 0) ∧
    ∀ r, r ≠ x → r ≠ vf → t.reg r = s.reg r

/-- SUBN Vx, Vy leaves V[y] - V[x] modulo 256 in V[x] (the spec's from general knowledge, G3), and VF = 1 exactly when
V[y] > V[x], the flag winning when x = F; nothing else but PC changes. -/
def Obligations.SubnLeavesReverseDifference : Prop :=
  ∀ (x y : Reg) (s : State), ∃ t, exec (.subnReg x y) s = .next t ∧ t = { s with v := t.v, pc := s.pc + 2 } ∧
    (x ≠ vf → (t.reg x).toNat = ((s.reg y).toNat + 256 - (s.reg x).toNat) % 256) ∧
    (t.reg vf).toNat = (if (s.reg y).toNat > (s.reg x).toNat then 1 else 0) ∧
    ∀ r, r ≠ x → r ≠ vf → t.reg r = s.reg r

/-- R137 and R139: SHR halves V[x] and SHL doubles it modulo 256, VF holding the bit shifted out, bit 0 or bit 7, the
flag winning when x = F; y is not read, and nothing else but PC changes. -/
def Obligations.ShiftsMoveOneBitIntoVf : Prop :=
  ∀ (x : Reg) (s : State),
    (∃ t, exec (.shr x) s = .next t ∧ t = { s with v := t.v, pc := s.pc + 2 } ∧
      (x ≠ vf → (t.reg x).toNat = (s.reg x).toNat / 2) ∧ (t.reg vf).toNat = (s.reg x).toNat % 2 ∧
      ∀ r, r ≠ x → r ≠ vf → t.reg r = s.reg r) ∧
    (∃ t, exec (.shl x) s = .next t ∧ t = { s with v := t.v, pc := s.pc + 2 } ∧
      (x ≠ vf → (t.reg x).toNat = (s.reg x).toNat * 2 % 256) ∧ (t.reg vf).toNat = (s.reg x).toNat / 128 ∧
      ∀ r, r ≠ x → r ≠ vf → t.reg r = s.reg r)

/-! ## Display -/

/-- CLS turns every pixel off and sends one clear notification; DRAW, VF and everything else but PC stay (that DRAW is
not set is the spec's decision D26). -/
def Obligations.ClsClearsEveryPixel : Prop :=
  ∀ s : State, ∃ t, exec .cls s = .next t ∧ t = { s with fb := t.fb, pc := s.pc + 2, out := s.out ++ [.clear] } ∧
    ∀ row < 32, ∀ col < 64, t.fb.pixel row col = false

/-- DRW draws the sprite: a pixel is inverted exactly when a 1 bit of one of the n bytes at I falls on it, coordinates
wrapping on both axes; VF is 1 exactly when a pixel went from on to off; DRAW is set; nothing else but PC changes.
The coordinates are V[x] and V[y] before VF is written (the spec's decision D20), and the range of addresses is inside
MEM (decision D10) or empty. -/
def Obligations.DrwInvertsExactlyTheSpritePixels : Prop :=
  ∀ (x y : Reg) (n : Nibble) (s : State), n.toNat = 0 ∨ s.i.toNat + n.toNat - 1 ≤ 4095 →
    ∃ t, exec (.drw x y n) s = .next t ∧ t = { s with v := t.v, fb := t.fb, draw := true, pc := s.pc + 2 } ∧
      (∀ row < 32, ∀ col < 64, t.fb.pixel row col ≠ s.fb.pixel row col ↔
        ∃ yl < n.toNat, ∃ xl < 8, (s.mem.read (s.i.toNat + yl)).getLsbD (7 - xl) = true ∧
          ((s.reg x).toNat + xl) % 64 = col ∧ ((s.reg y).toNat + yl) % 32 = row) ∧
      ((∃ row < 32, ∃ col < 64, s.fb.pixel row col = true ∧ t.fb.pixel row col = false) → t.reg vf = 1) ∧
      ((∀ row < 32, ∀ col < 64, s.fb.pixel row col = true → t.fb.pixel row col = true) → t.reg vf = 0) ∧
      ∀ r, r ≠ vf → t.reg r = s.reg r

/-- Drawing the same sprite a second time at the same place gives the framebuffer back. That the second draw reports a
collision exactly when the first had turned a pixel on is log 31: it follows the rule's pseudocode where the rule's
remark says, without a condition on the first draw, that a sprite with any 1 bit collides. -/
def Obligations.DrawingTwiceRestoresTheFramebuffer : Prop :=
  ∀ (x y : Reg) (n : Nibble) (s u w : State), n.toNat = 0 ∨ s.i.toNat + n.toNat - 1 ≤ 4095 →
    exec (.drw x y n) s = .next u → w.fb = u.fb → w.mem = s.mem → w.i = s.i → w.reg x = s.reg x →
    w.reg y = s.reg y →
    ∃ t, exec (.drw x y n) w = .next t ∧ t.fb = s.fb ∧
      (t.reg vf = 1 ↔ ∃ row < 32, ∃ col < 64, s.fb.pixel row col = false ∧ u.fb.pixel row col = true)

/-! ## Keypad -/

/-- With V[x] at most 15, SKP skips exactly when that key is down in KEYS and SKNP exactly when it is not, and nothing
else changes; above 15 both raise KeyIndexError and change nothing else (the error is the spec's decision D17, the
pairing of the two its decision D22). -/
def Obligations.KeySkipsReadTheLatch : Prop :=
  ∀ (x : Reg) (s : State),
    ((s.reg x).toNat ≤ 15 →
      exec (.skp x) s = .next { s with
        pc := if s.keys.getLsbD (s.reg x).toNat = true then s.pc + 4 else s.pc + 2 } ∧
      exec (.sknp x) s = .next { s with
        pc := if s.keys.getLsbD (s.reg x).toNat = false then s.pc + 4 else s.pc + 2 }) ∧
    ((s.reg x).toNat > 15 → ∀ i, i = .skp x ∨ i = .sknp x → exec i s = .next { s with
      halted := true, err := some (.keyIndexError s.pc (s.reg x)),
      out := [.report (.keyIndexError s.pc (s.reg x))] })

/-- The cycle that executes LD Vx, K leaves PC at the instruction and the machine waiting for register x; it is a
normal cycle in which the timers count once and KEYS is refreshed (the spec's decision D18). -/
def Obligations.LdVxKStartsTheWait : Prop :=
  ∀ (x : Reg) (s : State),
    exec (.ldVxK x) s = .next { s with waiting := true, waitX := x } ∧
    (s.Fetches → decodeWord s.fetchWord = .ok (.ldVxK x) → ∃ t, step s = .next t ∧ t.waiting = true ∧ t.waitX = x ∧
      t.pc = s.pc ∧ t.v = s.v ∧ t.dt.toNat = s.dt.toNat - 1 ∧ t.st.toNat = s.st.toNat - 1 ∧
      t.keys = s.input.keysIn)

/-! ## Timers, index and memory transfers -/

/-- LD Vx, DT reads the delay timer, LD DT, Vx and LD ST, Vx write the timers, ADD I, Vx adds V[x] to I modulo 65536
without a flag (which of the four does what is the spec's from general knowledge, G2; the wrap is its decision D14);
nothing else but PC changes. -/
def Obligations.TimerAndIndexMoves : Prop :=
  ∀ (x : Reg) (s : State),
    (∃ t, exec (.ldVxDt x) s = .next t ∧ t = { s with v := t.v, pc := s.pc + 2 } ∧ t.reg x = s.dt ∧
      ∀ r, r ≠ x → t.reg r = s.reg r) ∧
    exec (.ldDtVx x) s = .next { s with dt := s.reg x, pc := s.pc + 2 } ∧
    exec (.ldStVx x) s = .next { s with st := s.reg x, pc := s.pc + 2 } ∧
    (∃ t, exec (.addIVx x) s = .next t ∧ t = { s with i := t.i, pc := s.pc + 2 } ∧
      t.i.toNat = (s.i.toNat + (s.reg x).toNat) % 65536)

/-- With I + 2 at most 4095, LD B, Vx stores the hundreds, tens and ones of V[x] at I, I + 1, I + 2 and changes no
other byte and nothing else but PC (the bound is the spec's decision D10). -/
def Obligations.LdBStoresThreeDigits : Prop :=
  ∀ (x : Reg) (s : State), s.i.toNat + 2 ≤ 4095 →
    ∃ t, exec (.ldBVx x) s = .next t ∧ t = { s with mem := t.mem, pc := s.pc + 2 } ∧
      (t.mem.read s.i.toNat).toNat = (s.reg x).toNat / 100 ∧
      (t.mem.read (s.i.toNat + 1)).toNat = (s.reg x).toNat / 10 % 10 ∧
      (t.mem.read (s.i.toNat + 2)).toNat = (s.reg x).toNat % 10 ∧
      ∀ a, a < s.i.toNat ∨ s.i.toNat + 2 < a → t.mem.read a = s.mem.read a

/-- With I + x at most 4095, LD [I], Vx stores V[0] to V[x] at I to I + x, and LD Vx, [I] loads them from there; no
other byte, no other register and nothing else but PC changes, I included (the bound is the spec's decision D10, I
unchanged its decision D13). -/
def Obligations.BlockStoreAndBlockLoad : Prop :=
  ∀ (x : Reg) (s : State), s.i.toNat + x.val ≤ 4095 →
    (∃ t, exec (.storeRegs x) s = .next t ∧ t = { s with mem := t.mem, pc := s.pc + 2 } ∧
      (∀ r : Reg, r.val ≤ x.val → t.mem.read (s.i.toNat + r.val) = s.reg r) ∧
      ∀ a, a < s.i.toNat ∨ s.i.toNat + x.val < a → t.mem.read a = s.mem.read a) ∧
    (∃ t, exec (.loadRegs x) s = .next t ∧ t = { s with v := t.v, pc := s.pc + 2 } ∧
      (∀ r : Reg, r.val ≤ x.val → t.reg r = s.mem.read (s.i.toNat + r.val)) ∧
      ∀ r : Reg, x.val < r.val → t.reg r = s.reg r)

/-- A block load at the same I, from the memory a block store left, gives V[0] to V[x] back. -/
def Obligations.BlockLoadAfterBlockStoreRestores : Prop :=
  ∀ (x : Reg) (s u w : State), s.i.toNat + x.val ≤ 4095 → exec (.storeRegs x) s = .next u →
    w.mem = u.mem → w.i = s.i →
    ∃ t, exec (.loadRegs x) w = .next t ∧ ∀ r : Reg, r.val ≤ x.val → t.reg r = s.reg r

/-- DRW, LD B, LD [I] and LD Vx, [I] whose range of addresses reaches above 4095 raise AddressError with the lowest
such address, before anything is changed (the spec's decisions D10, D19). -/
def Obligations.RangeAboveMemoryRaisesAddressError : Prop :=
  ∀ (x y : Reg) (n : Nibble) (s : State) (i : Instr),
    (i = .drw x y n ∧ n.toNat > 0 ∧ s.i.toNat + n.toNat - 1 > 4095) ∨ (i = .ldBVx x ∧ s.i.toNat + 2 > 4095) ∨
    (i = .storeRegs x ∧ s.i.toNat + x.val > 4095) ∨ (i = .loadRegs x ∧ s.i.toNat + x.val > 4095) →
    exec i s = .next { s with
      halted := true, err := some (.addressError s.pc (max s.i.toNat 4096)),
      out := [.report (.addressError s.pc (max s.i.toNat 4096))] }

/-- A byte stored by LD B or LD [I] is part of the very next fetch: the word the next cycle fetches, at PC + 2, is made
of the stored bytes where they lie in the stored range and of the old bytes elsewhere, for every overlap of the two,
none and partial ones included (self-modifying code, an inference of the spec; that the range is inside MEM is its
decision D10). -/
def Obligations.StoredBytesAreSeenByTheNextFetch : Prop :=
  ∀ (x : Reg) (s : State), s.pc.toNat ≤ 0xFFC →
    (s.i.toNat + 2 ≤ 4095 → ∃ t, exec (.ldBVx x) s = .next t ∧
      let digit := fun j => BitVec.ofNat 8 ((s.reg x).toNat / 10 ^ (2 - j) % 10)
      t.fetchWord = wordOf (s.byteUnderStore 3 digit (s.pc.toNat + 2)) (s.byteUnderStore 3 digit (s.pc.toNat + 3))) ∧
    (s.i.toNat + x.val ≤ 4095 → ∃ t, exec (.storeRegs x) s = .next t ∧
      let register := fun j => s.reg (Fin.ofNat 16 j)
      t.fetchWord = wordOf (s.byteUnderStore (x.val + 1) register (s.pc.toNat + 2))
        (s.byteUnderStore (x.val + 1) register (s.pc.toNat + 3)))
end

