-- ==== Sys2Proof/Laws/Encoding.lean ====
section
/-! SUPPORT. The bit-level laws of the instruction formats (spec/30_encoding.md R61, R70): what each field of an
assembled word is, and what the masks of the opcode map keep of it. -/

namespace Sys2Proof

@[simp] theorem regOf_regBits (r : Reg) : regOf (regBits r) = r := rfl

@[simp] theorem regBits_regOf (b : Nibble) : regBits (regOf b) = b := rfl

/-- A word is known by its sixteen bits. -/
theorem word_ext {a b : Word} (h : ∀ j : Fin 16, a.getLsbD j.val = b.getLsbD j.val) : a = b :=
  BitVec.eq_of_getLsbD_eq (fun j hj => h ⟨j, hj⟩)

/-! ### Fields of an assembled word -/

theorem wordNNN_fields (c : Nibble) (nnn : Imm12) :
    (fieldsOf (wordNNN c nnn)).c = c ∧ (fieldsOf (wordNNN c nnn)).nnn = nnn := by
  constructor
  · apply BitVec.eq_of_getLsbD_eq
    intro j hj
    simp only [fieldsOf, wordNNN, BitVec.getLsbD_extractLsb', BitVec.getLsbD_append]
    simp [hj]
  · apply BitVec.eq_of_getLsbD_eq
    intro j hj
    simp only [fieldsOf, wordNNN, BitVec.getLsbD_extractLsb', BitVec.getLsbD_append]
    simp [hj]

theorem wordXKK_c (c : Nibble) (x : Reg) (kk : Byte) : (fieldsOf (wordXKK c x kk)).c = c := by
  apply BitVec.eq_of_getLsbD_eq
  intro j hj
  simp only [fieldsOf, wordXKK, BitVec.getLsbD_extractLsb', BitVec.getLsbD_append]
  simp [hj]

theorem wordXKK_xBits (c : Nibble) (x : Reg) (kk : Byte) : (wordXKK c x kk).extractLsb' 8 4 = regBits x := by
  apply BitVec.eq_of_getLsbD_eq
  intro j hj
  simp only [wordXKK, BitVec.getLsbD_extractLsb', BitVec.getLsbD_append]
  have h1 : 8 + j < 12 := by omega
  simp [hj, h1]

theorem wordXKK_x (c : Nibble) (x : Reg) (kk : Byte) : (fieldsOf (wordXKK c x kk)).x = x := by
  simp only [fieldsOf, wordXKK_xBits, regOf_regBits]

theorem wordXKK_kk (c : Nibble) (x : Reg) (kk : Byte) : (fieldsOf (wordXKK c x kk)).kk = kk := by
  apply BitVec.eq_of_getLsbD_eq
  intro j hj
  simp only [fieldsOf, wordXKK, BitVec.getLsbD_extractLsb', BitVec.getLsbD_append]
  have h1 : j < 12 := by omega
  simp [hj, h1]

/-- A word of format XYN is the word of format XKK whose kk is `y n` (R61: kk = y n as nibbles). -/
theorem wordXYN_eq (c : Nibble) (x y : Reg) (n : Nibble) : wordXYN c x y n = wordXKK c x (regBits y ++ n) := rfl

theorem wordXYN_yBits (c : Nibble) (x y : Reg) (n : Nibble) :
    (wordXYN c x y n).extractLsb' 4 4 = regBits y := by
  apply BitVec.eq_of_getLsbD_eq
  intro j hj
  simp only [wordXYN, BitVec.getLsbD_extractLsb', BitVec.getLsbD_append]
  have h1 : 4 + j < 12 := by omega
  have h2 : 4 + j < 8 := by omega
  simp [hj, h1, h2]

theorem wordXYN_y (c : Nibble) (x y : Reg) (n : Nibble) : (fieldsOf (wordXYN c x y n)).y = y := by
  simp only [fieldsOf, wordXYN_yBits, regOf_regBits]

theorem wordXYN_n (c : Nibble) (x y : Reg) (n : Nibble) : (fieldsOf (wordXYN c x y n)).n = n := by
  apply BitVec.eq_of_getLsbD_eq
  intro j hj
  simp only [fieldsOf, wordXYN, BitVec.getLsbD_extractLsb', BitVec.getLsbD_append]
  have h1 : j < 12 := by omega
  have h2 : j < 8 := by omega
  simp [hj, h1, h2]

/-! ### What the masks of the opcode map keep -/

theorem wordNNN_mask (c : Nibble) (nnn : Imm12) : wordNNN c nnn &&& 0xF000 = c ++ 0#12 := by
  have h : (0xF000 : Word) = 0xF#4 ++ 0x000#12 := by decide
  rw [h, wordNNN, BitVec.and_append]
  congr 1
  · exact BitVec.and_allOnes
  · exact BitVec.and_zero

theorem wordXKK_mask (c : Nibble) (x : Reg) (kk : Byte) : wordXKK c x kk &&& 0xF000 = c ++ 0#12 :=
  wordNNN_mask c (regBits x ++ kk)

theorem wordXYN_mask (c : Nibble) (x y : Reg) (n : Nibble) : wordXYN c x y n &&& 0xF000 = c ++ 0#12 :=
  wordNNN_mask c (regBits x ++ (regBits y ++ n))

theorem wordXKK_mask_kk (c : Nibble) (x : Reg) (kk : Byte) : wordXKK c x kk &&& 0xF0FF = c ++ (0#4 ++ kk) := by
  have h : (0xF0FF : Word) = 0xF#4 ++ (0x0#4 ++ 0xFF#8) := by decide
  rw [h, wordXKK, BitVec.and_append, BitVec.and_append]
  congr 1
  · exact BitVec.and_allOnes
  · congr 1
    · exact BitVec.and_zero
    · exact BitVec.and_allOnes

theorem wordXYN_mask_n (c : Nibble) (x y : Reg) (n : Nibble) :
    wordXYN c x y n &&& 0xF00F = c ++ (0#4 ++ (0#4 ++ n)) := by
  have h : (0xF00F : Word) = 0xF#4 ++ (0x0#4 ++ (0x0#4 ++ 0xF#4)) := by decide
  rw [h, wordXYN, BitVec.and_append, BitVec.and_append, BitVec.and_append]
  congr 1
  · exact BitVec.and_allOnes
  · congr 1
    · exact BitVec.and_zero
    · congr 1
      · exact BitVec.and_zero
      · exact BitVec.and_allOnes

end Sys2Proof
end

