-- ==== Sys2Proof/Laws/Memory.lean ====
section
/-! SUPPORT. The laws of MEM: what one byte reads as after a write, what a run of bytes reads as, and that every
memory operation keeps the canonical form. None needs the canonical form to hold before, but for the last. -/

namespace Sys2Proof.Machine

/-- MEM_SIZE as a number, for arithmetic. -/
@[simp] theorem memSize_eq : Config.memSize = 4096 := rfl

/-! ### One byte -/

@[simp] theorem Memory.read_nil (a : Nat) : Memory.read [] a = Memory.initial a := rfl

theorem Memory.read_cons (c : Host.Cell) (m : Memory) (a : Nat) :
    Memory.read (c :: m) a = if c.1 = a then c.2 else Memory.read m a := rfl

theorem Memory.read_eraseCell (m : Memory) (a a' : Nat) :
    (m.eraseCell a).read a' = if a' = a then Memory.initial a else m.read a' := by
  induction m with
  | nil => by_cases h : a' = a <;> simp [Memory.eraseCell, h]
  | cons c m ih =>
    by_cases hc : c.1 = a
    · have : Memory.eraseCell (c :: m) a = Memory.eraseCell m a := by simp [Memory.eraseCell, hc]
      rw [this, ih, Memory.read_cons]
      by_cases h : a' = a
      · simp [h]
      · simp [h, hc, Ne.symm h]
    · have : Memory.eraseCell (c :: m) a = c :: Memory.eraseCell m a := by simp [Memory.eraseCell, hc]
      rw [this, Memory.read_cons, Memory.read_cons, ih]
      by_cases h : a' = a
      · simp [h, hc]
      · simp [h]

theorem Memory.read_insertCell (m : Memory) (a a' : Nat) (b : Byte) (h : ∀ c ∈ m, c.1 ≠ a) :
    (m.insertCell a b).read a' = if a' = a then b else m.read a' := by
  induction m with
  | nil => simp [Memory.insertCell, Memory.read_cons, eq_comm]
  | cons c m ih =>
    have hc : c.1 ≠ a := h c (by simp)
    have ih := ih (fun d hd => h d (by simp [hd]))
    by_cases hlt : a < c.1
    · simp [Memory.insertCell, hlt, Memory.read_cons (a, b), eq_comm]
    · simp only [Memory.insertCell, hlt, if_false, Memory.read_cons, ih]
      by_cases h' : a' = a
      · simp [h', hc]
      · simp [h']

/-- Read after write (R42, R48): the byte written at its address, every other byte as before. -/
@[simp] theorem Memory.read_write (m : Memory) (a a' : Nat) (b : Byte) :
    (m.write a b).read a' = if a' = a then b else m.read a' := by
  unfold Memory.write
  split
  · rename_i hb
    rw [Memory.read_eraseCell]
    simp [hb]
  · rw [Memory.read_insertCell _ _ _ _ (by simp [Memory.eraseCell]), Memory.read_eraseCell]
    by_cases h : a' = a <;> simp [h]

/-! ### Runs of bytes -/

/-- Read after a run of writes: the bytes stored, and every byte outside them as before. -/
theorem Memory.read_writeRun (m : Memory) (base : Nat) (bs : List Byte) (a : Nat) :
    (m.writeRun base bs).read a =
      if base ≤ a ∧ a < base + bs.length then bs.getD (a - base) 0 else m.read a := by
  induction bs generalizing m base with
  | nil => simp [Memory.writeRun]
  | cons b bs ih =>
    rw [Memory.writeRun, ih, Memory.read_write]
    by_cases h1 : a = base
    · subst h1; simp
    · by_cases h2 : base + 1 ≤ a ∧ a < base + 1 + bs.length
      · have h3 : base ≤ a ∧ a < base + (b :: bs).length := by simp; omega
        have h4 : a - base = (a - (base + 1)) + 1 := by omega
        rw [if_pos h2, if_pos h3, h4]
        simp
      · have h3 : ¬ (base ≤ a ∧ a < base + (b :: bs).length) := by simp; omega
        rw [if_neg h2, if_neg h3, if_neg h1]

/-- A byte outside the run stored is left alone. -/
theorem Memory.read_writeRun_outside (m : Memory) (base : Nat) (bs : List Byte) (a : Nat)
    (h : a < base ∨ base + bs.length ≤ a) : (m.writeRun base bs).read a = m.read a := by
  rw [Memory.read_writeRun, if_neg (by omega)]

@[simp] theorem Memory.readRun_length (m : Memory) (base n : Nat) : (m.readRun base n).length = n := by
  simp [Memory.readRun]

theorem Memory.readRun_getElem (m : Memory) (base n j : Nat) (h : j < (m.readRun base n).length) :
    (m.readRun base n)[j] = m.read (base + j) := by
  simp [Memory.readRun]

/-! ### The canonical form -/

theorem Memory.wfFrom_mono {lo lo' : Nat} (h : lo' ≤ lo) :
    ∀ {m : Memory}, Memory.wfFrom lo m = true → Memory.wfFrom lo' m = true
  | [], _ => rfl
  | c :: m, hm => by
    simp only [Memory.wfFrom, Bool.and_eq_true, decide_eq_true_eq] at hm ⊢
    exact ⟨⟨⟨by omega, hm.1.1.2⟩, hm.1.2⟩, hm.2⟩

theorem Memory.wfFrom_eraseCell (a : Nat) :
    ∀ {lo : Nat} {m : Memory}, Memory.wfFrom lo m = true → Memory.wfFrom lo (m.eraseCell a) = true
  | _, [], _ => rfl
  | lo, c :: m, hm => by
    simp only [Memory.wfFrom, Bool.and_eq_true, decide_eq_true_eq] at hm
    have ih := Memory.wfFrom_eraseCell a hm.2
    by_cases hc : c.1 = a
    · have he : Memory.eraseCell (c :: m) a = Memory.eraseCell m a := by simp [Memory.eraseCell, hc]
      rw [he]
      exact Memory.wfFrom_mono (by omega) ih
    · have he : Memory.eraseCell (c :: m) a = c :: Memory.eraseCell m a := by simp [Memory.eraseCell, hc]
      rw [he]
      simp only [Memory.wfFrom, Bool.and_eq_true, decide_eq_true_eq]
      exact ⟨hm.1, ih⟩

theorem Memory.wfFrom_insertCell {a : Nat} {b : Byte} (ha : a < Config.memSize) (hb : b ≠ Memory.initial a) :
    ∀ {lo : Nat} {m : Memory}, lo ≤ a → (∀ c ∈ m, c.1 ≠ a) → Memory.wfFrom lo m = true →
      Memory.wfFrom lo (m.insertCell a b) = true
  | _, [], hlo, _, _ => by simp [Memory.insertCell, Memory.wfFrom, hlo, ha, hb]
  | lo, c :: m, hlo, hne, hm => by
    have hc : c.1 ≠ a := hne c (by simp)
    simp only [Memory.wfFrom, Bool.and_eq_true, decide_eq_true_eq] at hm
    by_cases hlt : a < c.1
    · simp only [Memory.insertCell, hlt, if_true, Memory.wfFrom, Bool.and_eq_true, decide_eq_true_eq, bne_iff_ne,
        ne_eq]
      exact ⟨⟨⟨hlo, ha⟩, hb⟩, ⟨⟨by omega, hm.1.1.2⟩, by simpa using hm.1.2⟩, hm.2⟩
    · simp only [Memory.insertCell, hlt, if_false, Memory.wfFrom, Bool.and_eq_true, decide_eq_true_eq]
      exact ⟨hm.1, Memory.wfFrom_insertCell ha hb (by omega) (fun d hd => hne d (by simp [hd])) hm.2⟩

/-- A write inside MEM keeps the canonical form. -/
theorem Memory.wf_write {m : Memory} {a : Nat} (b : Byte) (h : m.wf = true) (ha : a < Config.memSize) :
    (m.write a b).wf = true := by
  unfold Memory.write
  split
  · exact Memory.wfFrom_eraseCell a h
  · rename_i hb
    exact Memory.wfFrom_insertCell ha hb (Nat.zero_le _) (by simp [Memory.eraseCell]) (Memory.wfFrom_eraseCell a h)

/-- A run of writes inside MEM keeps the canonical form. -/
theorem Memory.wf_writeRun {m : Memory} {base : Nat} {bs : List Byte} (h : m.wf = true)
    (hin : base + bs.length ≤ Config.memSize) : (m.writeRun base bs).wf = true := by
  induction bs generalizing m base with
  | nil => exact h
  | cons b bs ih =>
    simp only [List.length_cons] at hin
    exact ih (Memory.wf_write b h (by omega)) (by omega)

end Sys2Proof.Machine
end

