-- ==== Sys2Proof/Laws/State.lean ====
section
/-! SUPPORT. One lemma per field per update, true by rfl: what each named update of the state leaves and what it
sets, so that no proof unfolds a record update. -/

namespace Sys2Proof.Machine

/-! ### setReg -/

@[simp] theorem State.setReg_i (s : State) (x : Reg) (b : Byte) : (s.setReg x b).i = s.i := rfl
@[simp] theorem State.setReg_pc (s : State) (x : Reg) (b : Byte) : (s.setReg x b).pc = s.pc := rfl
@[simp] theorem State.setReg_sp (s : State) (x : Reg) (b : Byte) : (s.setReg x b).sp = s.sp := rfl
@[simp] theorem State.setReg_stack (s : State) (x : Reg) (b : Byte) : (s.setReg x b).stack = s.stack := rfl
@[simp] theorem State.setReg_dt (s : State) (x : Reg) (b : Byte) : (s.setReg x b).dt = s.dt := rfl
@[simp] theorem State.setReg_st (s : State) (x : Reg) (b : Byte) : (s.setReg x b).st = s.st := rfl
@[simp] theorem State.setReg_mem (s : State) (x : Reg) (b : Byte) : (s.setReg x b).mem = s.mem := rfl
@[simp] theorem State.setReg_fb (s : State) (x : Reg) (b : Byte) : (s.setReg x b).fb = s.fb := rfl
@[simp] theorem State.setReg_keys (s : State) (x : Reg) (b : Byte) : (s.setReg x b).keys = s.keys := rfl
@[simp] theorem State.setReg_draw (s : State) (x : Reg) (b : Byte) : (s.setReg x b).draw = s.draw := rfl
@[simp] theorem State.setReg_waiting (s : State) (x : Reg) (b : Byte) : (s.setReg x b).waiting = s.waiting := rfl
@[simp] theorem State.setReg_waitX (s : State) (x : Reg) (b : Byte) : (s.setReg x b).waitX = s.waitX := rfl
@[simp] theorem State.setReg_halted (s : State) (x : Reg) (b : Byte) : (s.setReg x b).halted = s.halted := rfl
@[simp] theorem State.setReg_err (s : State) (x : Reg) (b : Byte) : (s.setReg x b).err = s.err := rfl
@[simp] theorem State.setReg_out (s : State) (x : Reg) (b : Byte) : (s.setReg x b).out = s.out := rfl
@[simp] theorem State.setReg_inputs (s : State) (x : Reg) (b : Byte) : (s.setReg x b).inputs = s.inputs := rfl
@[simp] theorem State.setReg_cycle (s : State) (x : Reg) (b : Byte) : (s.setReg x b).cycle = s.cycle := rfl
@[simp] theorem State.setReg_v (s : State) (x : Reg) (b : Byte) : (s.setReg x b).v = s.v.set x.val b := rfl

/-! ### setPc -/

@[simp] theorem State.setPc_v (s : State) (w : Word) : (s.setPc w).v = s.v := rfl
@[simp] theorem State.setPc_i (s : State) (w : Word) : (s.setPc w).i = s.i := rfl
@[simp] theorem State.setPc_sp (s : State) (w : Word) : (s.setPc w).sp = s.sp := rfl
@[simp] theorem State.setPc_stack (s : State) (w : Word) : (s.setPc w).stack = s.stack := rfl
@[simp] theorem State.setPc_dt (s : State) (w : Word) : (s.setPc w).dt = s.dt := rfl
@[simp] theorem State.setPc_st (s : State) (w : Word) : (s.setPc w).st = s.st := rfl
@[simp] theorem State.setPc_mem (s : State) (w : Word) : (s.setPc w).mem = s.mem := rfl
@[simp] theorem State.setPc_fb (s : State) (w : Word) : (s.setPc w).fb = s.fb := rfl
@[simp] theorem State.setPc_keys (s : State) (w : Word) : (s.setPc w).keys = s.keys := rfl
@[simp] theorem State.setPc_draw (s : State) (w : Word) : (s.setPc w).draw = s.draw := rfl
@[simp] theorem State.setPc_waiting (s : State) (w : Word) : (s.setPc w).waiting = s.waiting := rfl
@[simp] theorem State.setPc_waitX (s : State) (w : Word) : (s.setPc w).waitX = s.waitX := rfl
@[simp] theorem State.setPc_halted (s : State) (w : Word) : (s.setPc w).halted = s.halted := rfl
@[simp] theorem State.setPc_err (s : State) (w : Word) : (s.setPc w).err = s.err := rfl
@[simp] theorem State.setPc_out (s : State) (w : Word) : (s.setPc w).out = s.out := rfl
@[simp] theorem State.setPc_inputs (s : State) (w : Word) : (s.setPc w).inputs = s.inputs := rfl
@[simp] theorem State.setPc_cycle (s : State) (w : Word) : (s.setPc w).cycle = s.cycle := rfl
@[simp] theorem State.setPc_pc (s : State) (w : Word) : (s.setPc w).pc = w := rfl

/-! ### advance -/

@[simp] theorem State.advance_v (s : State) : (s.advance).v = s.v := rfl
@[simp] theorem State.advance_i (s : State) : (s.advance).i = s.i := rfl
@[simp] theorem State.advance_sp (s : State) : (s.advance).sp = s.sp := rfl
@[simp] theorem State.advance_stack (s : State) : (s.advance).stack = s.stack := rfl
@[simp] theorem State.advance_dt (s : State) : (s.advance).dt = s.dt := rfl
@[simp] theorem State.advance_st (s : State) : (s.advance).st = s.st := rfl
@[simp] theorem State.advance_mem (s : State) : (s.advance).mem = s.mem := rfl
@[simp] theorem State.advance_fb (s : State) : (s.advance).fb = s.fb := rfl
@[simp] theorem State.advance_keys (s : State) : (s.advance).keys = s.keys := rfl
@[simp] theorem State.advance_draw (s : State) : (s.advance).draw = s.draw := rfl
@[simp] theorem State.advance_waiting (s : State) : (s.advance).waiting = s.waiting := rfl
@[simp] theorem State.advance_waitX (s : State) : (s.advance).waitX = s.waitX := rfl
@[simp] theorem State.advance_halted (s : State) : (s.advance).halted = s.halted := rfl
@[simp] theorem State.advance_err (s : State) : (s.advance).err = s.err := rfl
@[simp] theorem State.advance_out (s : State) : (s.advance).out = s.out := rfl
@[simp] theorem State.advance_inputs (s : State) : (s.advance).inputs = s.inputs := rfl
@[simp] theorem State.advance_cycle (s : State) : (s.advance).cycle = s.cycle := rfl
@[simp] theorem State.advance_pc (s : State) : (s.advance).pc = s.pc + 2 := rfl

/-! ### skipIf -/

@[simp] theorem State.skipIf_v (s : State) (c : Bool) : (s.skipIf c).v = s.v := rfl
@[simp] theorem State.skipIf_i (s : State) (c : Bool) : (s.skipIf c).i = s.i := rfl
@[simp] theorem State.skipIf_sp (s : State) (c : Bool) : (s.skipIf c).sp = s.sp := rfl
@[simp] theorem State.skipIf_stack (s : State) (c : Bool) : (s.skipIf c).stack = s.stack := rfl
@[simp] theorem State.skipIf_dt (s : State) (c : Bool) : (s.skipIf c).dt = s.dt := rfl
@[simp] theorem State.skipIf_st (s : State) (c : Bool) : (s.skipIf c).st = s.st := rfl
@[simp] theorem State.skipIf_mem (s : State) (c : Bool) : (s.skipIf c).mem = s.mem := rfl
@[simp] theorem State.skipIf_fb (s : State) (c : Bool) : (s.skipIf c).fb = s.fb := rfl
@[simp] theorem State.skipIf_keys (s : State) (c : Bool) : (s.skipIf c).keys = s.keys := rfl
@[simp] theorem State.skipIf_draw (s : State) (c : Bool) : (s.skipIf c).draw = s.draw := rfl
@[simp] theorem State.skipIf_waiting (s : State) (c : Bool) : (s.skipIf c).waiting = s.waiting := rfl
@[simp] theorem State.skipIf_waitX (s : State) (c : Bool) : (s.skipIf c).waitX = s.waitX := rfl
@[simp] theorem State.skipIf_halted (s : State) (c : Bool) : (s.skipIf c).halted = s.halted := rfl
@[simp] theorem State.skipIf_err (s : State) (c : Bool) : (s.skipIf c).err = s.err := rfl
@[simp] theorem State.skipIf_out (s : State) (c : Bool) : (s.skipIf c).out = s.out := rfl
@[simp] theorem State.skipIf_inputs (s : State) (c : Bool) : (s.skipIf c).inputs = s.inputs := rfl
@[simp] theorem State.skipIf_cycle (s : State) (c : Bool) : (s.skipIf c).cycle = s.cycle := rfl
@[simp] theorem State.skipIf_pc (s : State) (c : Bool) : (s.skipIf c).pc = s.pc + if c then 4 else 2 := rfl

/-! ### setI -/

@[simp] theorem State.setI_v (s : State) (w : Word) : (s.setI w).v = s.v := rfl
@[simp] theorem State.setI_pc (s : State) (w : Word) : (s.setI w).pc = s.pc := rfl
@[simp] theorem State.setI_sp (s : State) (w : Word) : (s.setI w).sp = s.sp := rfl
@[simp] theorem State.setI_stack (s : State) (w : Word) : (s.setI w).stack = s.stack := rfl
@[simp] theorem State.setI_dt (s : State) (w : Word) : (s.setI w).dt = s.dt := rfl
@[simp] theorem State.setI_st (s : State) (w : Word) : (s.setI w).st = s.st := rfl
@[simp] theorem State.setI_mem (s : State) (w : Word) : (s.setI w).mem = s.mem := rfl
@[simp] theorem State.setI_fb (s : State) (w : Word) : (s.setI w).fb = s.fb := rfl
@[simp] theorem State.setI_keys (s : State) (w : Word) : (s.setI w).keys = s.keys := rfl
@[simp] theorem State.setI_draw (s : State) (w : Word) : (s.setI w).draw = s.draw := rfl
@[simp] theorem State.setI_waiting (s : State) (w : Word) : (s.setI w).waiting = s.waiting := rfl
@[simp] theorem State.setI_waitX (s : State) (w : Word) : (s.setI w).waitX = s.waitX := rfl
@[simp] theorem State.setI_halted (s : State) (w : Word) : (s.setI w).halted = s.halted := rfl
@[simp] theorem State.setI_err (s : State) (w : Word) : (s.setI w).err = s.err := rfl
@[simp] theorem State.setI_out (s : State) (w : Word) : (s.setI w).out = s.out := rfl
@[simp] theorem State.setI_inputs (s : State) (w : Word) : (s.setI w).inputs = s.inputs := rfl
@[simp] theorem State.setI_cycle (s : State) (w : Word) : (s.setI w).cycle = s.cycle := rfl
@[simp] theorem State.setI_i (s : State) (w : Word) : (s.setI w).i = w := rfl

/-! ### halt -/

@[simp] theorem State.halt_v (s : State) (e : FatalError) : (s.halt e).v = s.v := rfl
@[simp] theorem State.halt_i (s : State) (e : FatalError) : (s.halt e).i = s.i := rfl
@[simp] theorem State.halt_pc (s : State) (e : FatalError) : (s.halt e).pc = s.pc := rfl
@[simp] theorem State.halt_sp (s : State) (e : FatalError) : (s.halt e).sp = s.sp := rfl
@[simp] theorem State.halt_stack (s : State) (e : FatalError) : (s.halt e).stack = s.stack := rfl
@[simp] theorem State.halt_dt (s : State) (e : FatalError) : (s.halt e).dt = s.dt := rfl
@[simp] theorem State.halt_st (s : State) (e : FatalError) : (s.halt e).st = s.st := rfl
@[simp] theorem State.halt_mem (s : State) (e : FatalError) : (s.halt e).mem = s.mem := rfl
@[simp] theorem State.halt_fb (s : State) (e : FatalError) : (s.halt e).fb = s.fb := rfl
@[simp] theorem State.halt_keys (s : State) (e : FatalError) : (s.halt e).keys = s.keys := rfl
@[simp] theorem State.halt_draw (s : State) (e : FatalError) : (s.halt e).draw = s.draw := rfl
@[simp] theorem State.halt_waiting (s : State) (e : FatalError) : (s.halt e).waiting = s.waiting := rfl
@[simp] theorem State.halt_waitX (s : State) (e : FatalError) : (s.halt e).waitX = s.waitX := rfl
@[simp] theorem State.halt_inputs (s : State) (e : FatalError) : (s.halt e).inputs = s.inputs := rfl
@[simp] theorem State.halt_cycle (s : State) (e : FatalError) : (s.halt e).cycle = s.cycle := rfl
@[simp] theorem State.halt_halted (s : State) (e : FatalError) : (s.halt e).halted = true := rfl
@[simp] theorem State.halt_err (s : State) (e : FatalError) : (s.halt e).err = some e := rfl
@[simp] theorem State.halt_out (s : State) (e : FatalError) : (s.halt e).out = [.report e] := rfl

/-! ### push -/

@[simp] theorem State.push_v (s : State) (w : Word) (h : s.sp.val < 16) : (s.push w h).v = s.v := rfl
@[simp] theorem State.push_i (s : State) (w : Word) (h : s.sp.val < 16) : (s.push w h).i = s.i := rfl
@[simp] theorem State.push_pc (s : State) (w : Word) (h : s.sp.val < 16) : (s.push w h).pc = s.pc := rfl
@[simp] theorem State.push_dt (s : State) (w : Word) (h : s.sp.val < 16) : (s.push w h).dt = s.dt := rfl
@[simp] theorem State.push_st (s : State) (w : Word) (h : s.sp.val < 16) : (s.push w h).st = s.st := rfl
@[simp] theorem State.push_mem (s : State) (w : Word) (h : s.sp.val < 16) : (s.push w h).mem = s.mem := rfl
@[simp] theorem State.push_fb (s : State) (w : Word) (h : s.sp.val < 16) : (s.push w h).fb = s.fb := rfl
@[simp] theorem State.push_keys (s : State) (w : Word) (h : s.sp.val < 16) : (s.push w h).keys = s.keys := rfl
@[simp] theorem State.push_draw (s : State) (w : Word) (h : s.sp.val < 16) : (s.push w h).draw = s.draw := rfl
@[simp] theorem State.push_waiting (s : State) (w : Word) (h : s.sp.val < 16) : (s.push w h).waiting = s.waiting := rfl
@[simp] theorem State.push_waitX (s : State) (w : Word) (h : s.sp.val < 16) : (s.push w h).waitX = s.waitX := rfl
@[simp] theorem State.push_halted (s : State) (w : Word) (h : s.sp.val < 16) : (s.push w h).halted = s.halted := rfl
@[simp] theorem State.push_err (s : State) (w : Word) (h : s.sp.val < 16) : (s.push w h).err = s.err := rfl
@[simp] theorem State.push_out (s : State) (w : Word) (h : s.sp.val < 16) : (s.push w h).out = s.out := rfl
@[simp] theorem State.push_inputs (s : State) (w : Word) (h : s.sp.val < 16) : (s.push w h).inputs = s.inputs := rfl
@[simp] theorem State.push_cycle (s : State) (w : Word) (h : s.sp.val < 16) : (s.push w h).cycle = s.cycle := rfl
@[simp] theorem State.push_stack (s : State) (w : Word) (h : s.sp.val < 16) : (s.push w h).stack = s.stack.set s.sp.val w := rfl
@[simp] theorem State.push_sp (s : State) (w : Word) (h : s.sp.val < 16) : (s.push w h).sp = ⟨s.sp.val + 1, Nat.succ_lt_succ h⟩ := rfl

/-! ### pop -/

@[simp] theorem State.pop_v (s : State) : (s.pop).v = s.v := rfl
@[simp] theorem State.pop_i (s : State) : (s.pop).i = s.i := rfl
@[simp] theorem State.pop_pc (s : State) : (s.pop).pc = s.pc := rfl
@[simp] theorem State.pop_stack (s : State) : (s.pop).stack = s.stack := rfl
@[simp] theorem State.pop_dt (s : State) : (s.pop).dt = s.dt := rfl
@[simp] theorem State.pop_st (s : State) : (s.pop).st = s.st := rfl
@[simp] theorem State.pop_mem (s : State) : (s.pop).mem = s.mem := rfl
@[simp] theorem State.pop_fb (s : State) : (s.pop).fb = s.fb := rfl
@[simp] theorem State.pop_keys (s : State) : (s.pop).keys = s.keys := rfl
@[simp] theorem State.pop_draw (s : State) : (s.pop).draw = s.draw := rfl
@[simp] theorem State.pop_waiting (s : State) : (s.pop).waiting = s.waiting := rfl
@[simp] theorem State.pop_waitX (s : State) : (s.pop).waitX = s.waitX := rfl
@[simp] theorem State.pop_halted (s : State) : (s.pop).halted = s.halted := rfl
@[simp] theorem State.pop_err (s : State) : (s.pop).err = s.err := rfl
@[simp] theorem State.pop_out (s : State) : (s.pop).out = s.out := rfl
@[simp] theorem State.pop_inputs (s : State) : (s.pop).inputs = s.inputs := rfl
@[simp] theorem State.pop_cycle (s : State) : (s.pop).cycle = s.cycle := rfl
@[simp] theorem State.pop_sp (s : State) : (s.pop).sp = ⟨s.sp.val - 1, Nat.lt_of_le_of_lt (Nat.sub_le _ _) s.sp.isLt⟩ := rfl

/-! ### store -/

@[simp] theorem State.store_v (s : State) (base : Nat) (bs : List Byte) : (s.store base bs).v = s.v := rfl
@[simp] theorem State.store_i (s : State) (base : Nat) (bs : List Byte) : (s.store base bs).i = s.i := rfl
@[simp] theorem State.store_pc (s : State) (base : Nat) (bs : List Byte) : (s.store base bs).pc = s.pc := rfl
@[simp] theorem State.store_sp (s : State) (base : Nat) (bs : List Byte) : (s.store base bs).sp = s.sp := rfl
@[simp] theorem State.store_stack (s : State) (base : Nat) (bs : List Byte) : (s.store base bs).stack = s.stack := rfl
@[simp] theorem State.store_dt (s : State) (base : Nat) (bs : List Byte) : (s.store base bs).dt = s.dt := rfl
@[simp] theorem State.store_st (s : State) (base : Nat) (bs : List Byte) : (s.store base bs).st = s.st := rfl
@[simp] theorem State.store_fb (s : State) (base : Nat) (bs : List Byte) : (s.store base bs).fb = s.fb := rfl
@[simp] theorem State.store_keys (s : State) (base : Nat) (bs : List Byte) : (s.store base bs).keys = s.keys := rfl
@[simp] theorem State.store_draw (s : State) (base : Nat) (bs : List Byte) : (s.store base bs).draw = s.draw := rfl
@[simp] theorem State.store_waiting (s : State) (base : Nat) (bs : List Byte) : (s.store base bs).waiting = s.waiting := rfl
@[simp] theorem State.store_waitX (s : State) (base : Nat) (bs : List Byte) : (s.store base bs).waitX = s.waitX := rfl
@[simp] theorem State.store_halted (s : State) (base : Nat) (bs : List Byte) : (s.store base bs).halted = s.halted := rfl
@[simp] theorem State.store_err (s : State) (base : Nat) (bs : List Byte) : (s.store base bs).err = s.err := rfl
@[simp] theorem State.store_out (s : State) (base : Nat) (bs : List Byte) : (s.store base bs).out = s.out := rfl
@[simp] theorem State.store_inputs (s : State) (base : Nat) (bs : List Byte) : (s.store base bs).inputs = s.inputs := rfl
@[simp] theorem State.store_cycle (s : State) (base : Nat) (bs : List Byte) : (s.store base bs).cycle = s.cycle := rfl
@[simp] theorem State.store_mem (s : State) (base : Nat) (bs : List Byte) : (s.store base bs).mem = s.mem.writeRun base bs := rfl

/-! ### loadRun -/

@[simp] theorem State.loadRun_i (s : State) (base : Nat) (x : Reg) : (s.loadRun base x).i = s.i := rfl
@[simp] theorem State.loadRun_pc (s : State) (base : Nat) (x : Reg) : (s.loadRun base x).pc = s.pc := rfl
@[simp] theorem State.loadRun_sp (s : State) (base : Nat) (x : Reg) : (s.loadRun base x).sp = s.sp := rfl
@[simp] theorem State.loadRun_stack (s : State) (base : Nat) (x : Reg) : (s.loadRun base x).stack = s.stack := rfl
@[simp] theorem State.loadRun_dt (s : State) (base : Nat) (x : Reg) : (s.loadRun base x).dt = s.dt := rfl
@[simp] theorem State.loadRun_st (s : State) (base : Nat) (x : Reg) : (s.loadRun base x).st = s.st := rfl
@[simp] theorem State.loadRun_mem (s : State) (base : Nat) (x : Reg) : (s.loadRun base x).mem = s.mem := rfl
@[simp] theorem State.loadRun_fb (s : State) (base : Nat) (x : Reg) : (s.loadRun base x).fb = s.fb := rfl
@[simp] theorem State.loadRun_keys (s : State) (base : Nat) (x : Reg) : (s.loadRun base x).keys = s.keys := rfl
@[simp] theorem State.loadRun_draw (s : State) (base : Nat) (x : Reg) : (s.loadRun base x).draw = s.draw := rfl
@[simp] theorem State.loadRun_waiting (s : State) (base : Nat) (x : Reg) : (s.loadRun base x).waiting = s.waiting := rfl
@[simp] theorem State.loadRun_waitX (s : State) (base : Nat) (x : Reg) : (s.loadRun base x).waitX = s.waitX := rfl
@[simp] theorem State.loadRun_halted (s : State) (base : Nat) (x : Reg) : (s.loadRun base x).halted = s.halted := rfl
@[simp] theorem State.loadRun_err (s : State) (base : Nat) (x : Reg) : (s.loadRun base x).err = s.err := rfl
@[simp] theorem State.loadRun_out (s : State) (base : Nat) (x : Reg) : (s.loadRun base x).out = s.out := rfl
@[simp] theorem State.loadRun_inputs (s : State) (base : Nat) (x : Reg) : (s.loadRun base x).inputs = s.inputs := rfl
@[simp] theorem State.loadRun_cycle (s : State) (base : Nat) (x : Reg) : (s.loadRun base x).cycle = s.cycle := rfl
@[simp] theorem State.loadRun_v (s : State) (base : Nat) (x : Reg) : (s.loadRun base x).v = s.loadedRegs base x := rfl

/-! ### begin -/

@[simp] theorem State.begin_v (s : State) : (s.begin).v = s.v := rfl
@[simp] theorem State.begin_i (s : State) : (s.begin).i = s.i := rfl
@[simp] theorem State.begin_pc (s : State) : (s.begin).pc = s.pc := rfl
@[simp] theorem State.begin_sp (s : State) : (s.begin).sp = s.sp := rfl
@[simp] theorem State.begin_stack (s : State) : (s.begin).stack = s.stack := rfl
@[simp] theorem State.begin_dt (s : State) : (s.begin).dt = s.dt := rfl
@[simp] theorem State.begin_st (s : State) : (s.begin).st = s.st := rfl
@[simp] theorem State.begin_mem (s : State) : (s.begin).mem = s.mem := rfl
@[simp] theorem State.begin_fb (s : State) : (s.begin).fb = s.fb := rfl
@[simp] theorem State.begin_keys (s : State) : (s.begin).keys = s.keys := rfl
@[simp] theorem State.begin_draw (s : State) : (s.begin).draw = s.draw := rfl
@[simp] theorem State.begin_waiting (s : State) : (s.begin).waiting = s.waiting := rfl
@[simp] theorem State.begin_waitX (s : State) : (s.begin).waitX = s.waitX := rfl
@[simp] theorem State.begin_halted (s : State) : (s.begin).halted = s.halted := rfl
@[simp] theorem State.begin_err (s : State) : (s.begin).err = s.err := rfl
@[simp] theorem State.begin_inputs (s : State) : (s.begin).inputs = s.inputs := rfl
@[simp] theorem State.begin_cycle (s : State) : (s.begin).cycle = s.cycle := rfl
@[simp] theorem State.begin_out (s : State) : (s.begin).out = [] := rfl

/-! ### timerPhase -/

@[simp] theorem State.timerPhase_v (s : State) : (s.timerPhase).v = s.v := rfl
@[simp] theorem State.timerPhase_i (s : State) : (s.timerPhase).i = s.i := rfl
@[simp] theorem State.timerPhase_pc (s : State) : (s.timerPhase).pc = s.pc := rfl
@[simp] theorem State.timerPhase_sp (s : State) : (s.timerPhase).sp = s.sp := rfl
@[simp] theorem State.timerPhase_stack (s : State) : (s.timerPhase).stack = s.stack := rfl
@[simp] theorem State.timerPhase_mem (s : State) : (s.timerPhase).mem = s.mem := rfl
@[simp] theorem State.timerPhase_fb (s : State) : (s.timerPhase).fb = s.fb := rfl
@[simp] theorem State.timerPhase_keys (s : State) : (s.timerPhase).keys = s.keys := rfl
@[simp] theorem State.timerPhase_draw (s : State) : (s.timerPhase).draw = s.draw := rfl
@[simp] theorem State.timerPhase_waiting (s : State) : (s.timerPhase).waiting = s.waiting := rfl
@[simp] theorem State.timerPhase_waitX (s : State) : (s.timerPhase).waitX = s.waitX := rfl
@[simp] theorem State.timerPhase_halted (s : State) : (s.timerPhase).halted = s.halted := rfl
@[simp] theorem State.timerPhase_err (s : State) : (s.timerPhase).err = s.err := rfl
@[simp] theorem State.timerPhase_inputs (s : State) : (s.timerPhase).inputs = s.inputs := rfl
@[simp] theorem State.timerPhase_cycle (s : State) : (s.timerPhase).cycle = s.cycle := rfl
@[simp] theorem State.timerPhase_dt (s : State) : (s.timerPhase).dt = countDown s.dt := rfl
@[simp] theorem State.timerPhase_st (s : State) : (s.timerPhase).st = countDown s.st := rfl
@[simp] theorem State.timerPhase_out (s : State) : (s.timerPhase).out = s.out ++ beepOf s.st := rfl

/-! ### displayPhase -/

@[simp] theorem State.displayPhase_v (s : State) : (s.displayPhase).v = s.v := rfl
@[simp] theorem State.displayPhase_i (s : State) : (s.displayPhase).i = s.i := rfl
@[simp] theorem State.displayPhase_pc (s : State) : (s.displayPhase).pc = s.pc := rfl
@[simp] theorem State.displayPhase_sp (s : State) : (s.displayPhase).sp = s.sp := rfl
@[simp] theorem State.displayPhase_stack (s : State) : (s.displayPhase).stack = s.stack := rfl
@[simp] theorem State.displayPhase_dt (s : State) : (s.displayPhase).dt = s.dt := rfl
@[simp] theorem State.displayPhase_st (s : State) : (s.displayPhase).st = s.st := rfl
@[simp] theorem State.displayPhase_mem (s : State) : (s.displayPhase).mem = s.mem := rfl
@[simp] theorem State.displayPhase_fb (s : State) : (s.displayPhase).fb = s.fb := rfl
@[simp] theorem State.displayPhase_keys (s : State) : (s.displayPhase).keys = s.keys := rfl
@[simp] theorem State.displayPhase_waiting (s : State) : (s.displayPhase).waiting = s.waiting := rfl
@[simp] theorem State.displayPhase_waitX (s : State) : (s.displayPhase).waitX = s.waitX := rfl
@[simp] theorem State.displayPhase_halted (s : State) : (s.displayPhase).halted = s.halted := rfl
@[simp] theorem State.displayPhase_err (s : State) : (s.displayPhase).err = s.err := rfl
@[simp] theorem State.displayPhase_inputs (s : State) : (s.displayPhase).inputs = s.inputs := rfl
@[simp] theorem State.displayPhase_cycle (s : State) : (s.displayPhase).cycle = s.cycle := rfl
@[simp] theorem State.displayPhase_draw (s : State) : (s.displayPhase).draw = false := rfl
@[simp] theorem State.displayPhase_out (s : State) : (s.displayPhase).out = s.out ++ (if s.draw then [.update s.fb] else []) := rfl

/-! ### keyPhase -/

@[simp] theorem State.keyPhase_v (s : State) : (s.keyPhase).v = s.v := rfl
@[simp] theorem State.keyPhase_i (s : State) : (s.keyPhase).i = s.i := rfl
@[simp] theorem State.keyPhase_pc (s : State) : (s.keyPhase).pc = s.pc := rfl
@[simp] theorem State.keyPhase_sp (s : State) : (s.keyPhase).sp = s.sp := rfl
@[simp] theorem State.keyPhase_stack (s : State) : (s.keyPhase).stack = s.stack := rfl
@[simp] theorem State.keyPhase_dt (s : State) : (s.keyPhase).dt = s.dt := rfl
@[simp] theorem State.keyPhase_st (s : State) : (s.keyPhase).st = s.st := rfl
@[simp] theorem State.keyPhase_mem (s : State) : (s.keyPhase).mem = s.mem := rfl
@[simp] theorem State.keyPhase_fb (s : State) : (s.keyPhase).fb = s.fb := rfl
@[simp] theorem State.keyPhase_draw (s : State) : (s.keyPhase).draw = s.draw := rfl
@[simp] theorem State.keyPhase_waiting (s : State) : (s.keyPhase).waiting = s.waiting := rfl
@[simp] theorem State.keyPhase_waitX (s : State) : (s.keyPhase).waitX = s.waitX := rfl
@[simp] theorem State.keyPhase_halted (s : State) : (s.keyPhase).halted = s.halted := rfl
@[simp] theorem State.keyPhase_err (s : State) : (s.keyPhase).err = s.err := rfl
@[simp] theorem State.keyPhase_out (s : State) : (s.keyPhase).out = s.out := rfl
@[simp] theorem State.keyPhase_keys (s : State) : (s.keyPhase).keys = s.input.keysIn := rfl
@[simp] theorem State.keyPhase_inputs (s : State) : (s.keyPhase).inputs = s.inputs.tail := rfl
@[simp] theorem State.keyPhase_cycle (s : State) : (s.keyPhase).cycle = s.cycle + 1 := rfl

/-! ### Registers as operands -/

@[simp] theorem State.reg_setReg_self (s : State) (x : Reg) (b : Byte) : (s.setReg x b).reg x = b := by
  simp [State.reg]

theorem State.reg_setReg (s : State) (x r : Reg) (b : Byte) :
    (s.setReg x b).reg r = if r = x then b else s.reg r := by
  simp [State.reg, Vector.getElem_set, Fin.ext_iff, eq_comm]

@[simp] theorem State.reg_setReg_ne (s : State) (x r : Reg) (b : Byte) (h : r ≠ x) :
    (s.setReg x b).reg r = s.reg r := by
  simp [State.reg_setReg, h]

/-- An update that leaves V alone leaves every register alone. -/
theorem State.reg_congr (s t : State) (h : t.v = s.v) (r : Reg) : t.reg r = s.reg r := by
  simp [State.reg, h]

@[simp] theorem State.reg_setPc (s : State) (w : Word) (r : Reg) : (s.setPc w).reg r = s.reg r := rfl
@[simp] theorem State.reg_advance (s : State) (r : Reg) : s.advance.reg r = s.reg r := rfl
@[simp] theorem State.reg_skipIf (s : State) (c : Bool) (r : Reg) : (s.skipIf c).reg r = s.reg r := rfl
@[simp] theorem State.reg_setI (s : State) (w : Word) (r : Reg) : (s.setI w).reg r = s.reg r := rfl
@[simp] theorem State.reg_halt (s : State) (e : FatalError) (r : Reg) : (s.halt e).reg r = s.reg r := rfl
@[simp] theorem State.reg_push (s : State) (w : Word) (h : s.sp.val < 16) (r : Reg) :
    (s.push w h).reg r = s.reg r := rfl
@[simp] theorem State.reg_pop (s : State) (r : Reg) : s.pop.reg r = s.reg r := rfl
@[simp] theorem State.reg_store (s : State) (base : Nat) (bs : List Byte) (r : Reg) :
    (s.store base bs).reg r = s.reg r := rfl
@[simp] theorem State.reg_begin (s : State) (r : Reg) : s.begin.reg r = s.reg r := rfl
@[simp] theorem State.reg_endCycle (s : State) (r : Reg) : s.endCycle.reg r = s.reg r := rfl

/-- The block load, register by register (R177). -/
@[simp] theorem State.reg_loadRun (s : State) (base : Nat) (x r : Reg) :
    (s.loadRun base x).reg r = if r.val ≤ x.val then s.mem.read (base + r.val) else s.reg r := by
  simp [State.reg, State.loadRun, State.loadedRegs]

/-- The result and the flag, register by register: the flag wins in VF (R130). -/
theorem State.reg_setResultAndFlag (s : State) (x r : Reg) (b : Byte) (f : Bool) :
    (s.setResultAndFlag x b f).reg r = if r = vf then flagByte f else if r = x then b else s.reg r := by
  simp [State.setResultAndFlag, State.reg_setReg]

/-! ### What the inputs and the fetch see -/

/-- The inputs of a cycle depend on the schedule and the counter alone. -/
theorem State.input_congr (s t : State) (hi : t.inputs = s.inputs) (hc : t.cycle = s.cycle) :
    t.input = s.input := by
  simp [State.input, hi, hc]

@[simp] theorem State.input_begin (s : State) : s.begin.input = s.input := rfl
@[simp] theorem State.input_timerPhase (s : State) : s.timerPhase.input = s.input := rfl
@[simp] theorem State.input_displayPhase (s : State) : s.displayPhase.input = s.input := rfl
@[simp] theorem State.fetchWord_begin (s : State) : s.begin.fetchWord = s.fetchWord := rfl

end Sys2Proof.Machine
end

