-- ==== Sys2Proof/Laws/Ops.lean ====
section
/-! SUPPORT. One lemma per shared operation that says everything it can do: raising an error, the checks before an
effect, the call stack, stores, and the sprite algorithm. -/

namespace Sys2Proof.Machine

/-- FB_W as a number, for arithmetic. -/
@[simp] theorem columns_eq : Config.columns = 64 := rfl

/-- FB_H as a number, for arithmetic. -/
@[simp] theorem rows_eq : Config.rows = 32 := rfl

/-! ### Errors and checks -/

/-- Raising an error answers the halted state, always (R90). -/
@[simp] theorem raise_eq (e : FatalError) (s : State) : raise e s = .next (s.halt e) := rfl

theorem guardRange_inside {base len : Nat} {s done : State} (h : len = 0 ∨ base + len ≤ Config.memSize) :
    guardRange base len s done = .next done := by
  unfold guardRange
  rw [if_neg (by omega)]

theorem guardRange_outside {base len : Nat} {s done : State} (h : len ≠ 0) (h' : base + len > Config.memSize) :
    guardRange base len s done = .next (s.halt (.addressError s.pc (max base Config.memSize))) := by
  unfold guardRange
  rw [if_pos ⟨h, h'⟩, raise_eq]

/-- A checked access goes on, the range being inside MEM, or raises AddressError and changes nothing (R43). -/
theorem guardRange_cases {base len : Nat} {s done t : State} (h : guardRange base len s done = .next t) :
    ((len = 0 ∨ base + len ≤ Config.memSize) ∧ t = done) ∨
    ((len ≠ 0 ∧ base + len > Config.memSize) ∧ t = s.halt (.addressError s.pc (max base Config.memSize))) := by
  by_cases hc : len ≠ 0 ∧ base + len > Config.memSize
  · rw [guardRange_outside hc.1 hc.2] at h
    exact .inr ⟨hc, by injection h with h; exact h.symm⟩
  · have hin : len = 0 ∨ base + len ≤ Config.memSize := by omega
    rw [guardRange_inside hin] at h
    exact .inl ⟨hin, by injection h with h; exact h.symm⟩

theorem guardKey_inside {value : Byte} {s done : State} (h : value.toNat ≤ 15) :
    guardKey value s done = .next done := by
  unfold guardKey
  rw [if_neg (by omega)]

theorem guardKey_outside {value : Byte} {s done : State} (h : value.toNat > 15) :
    guardKey value s done = .next (s.halt (.keyIndexError s.pc value)) := by
  unfold guardKey
  rw [if_pos h, raise_eq]

/-- A checked key number goes on or raises KeyIndexError and changes nothing (R206). -/
theorem guardKey_cases {value : Byte} {s done t : State} (h : guardKey value s done = .next t) :
    (value.toNat ≤ 15 ∧ t = done) ∨ (value.toNat > 15 ∧ t = s.halt (.keyIndexError s.pc value)) := by
  by_cases hc : value.toNat > 15
  · rw [guardKey_outside hc] at h
    exact .inr ⟨hc, by injection h with h; exact h.symm⟩
  · rw [guardKey_inside (by omega)] at h
    exact .inl ⟨by omega, by injection h with h; exact h.symm⟩

/-! ### Operand forms -/

theorem State.regsUpTo_length (s : State) (x : Reg) : (s.regsUpTo x).length = x.val + 1 := by
  have := x.isLt
  simp [State.regsUpTo]

theorem State.regsUpTo_getD (s : State) (x j : Reg) (h : j.val ≤ x.val) : (s.regsUpTo x).getD j.val 0 = s.reg j := by
  have hj : j.val < x.val + 1 := by omega
  simp [State.regsUpTo, State.reg, List.getD_eq_getElem?_getD, hj]

/-! ### The framebuffer -/

/-- Flipping one pixel of the 32 x 64 changes that pixel and no other (R151). -/
theorem Framebuffer.pixel_flip (fb : Framebuffer) (row col r c : Nat) (hr : r < 32) (hc : c < 64)
    (hcol : col < 64) :
    (Framebuffer.flip fb r c).pixel row col = (fb.pixel row col ^^ decide (row = r ∧ col = c)) := by
  have hlt : r * 64 + c < 2048 := by omega
  have heq : (r * 64 + c = row * 64 + col) ↔ (row = r ∧ col = c) := by omega
  simp [Framebuffer.pixel, Framebuffer.flip, pixelIndex, Config.columns, hlt, heq]

/-- The sprite column that falls on framebuffer column `col` when drawing starts at column `cx`. -/
def spriteColumn (cx col : Nat) : Nat := (col + 64 - cx % 64) % 64

/-- The sprite row that falls on framebuffer row `row` when drawing starts at row `cy`. -/
def spriteRow (cy row : Nat) : Nat := (row + 32 - cy % 32) % 32

theorem spriteColumn_eq_iff {cx col k : Nat} (hk : k < 64) (hcol : col < 64) :
    spriteColumn cx col = k ↔ (cx + k) % 64 = col := by
  unfold spriteColumn; omega

theorem spriteRow_eq_iff {cy row k : Nat} (hk : k < 32) (hrow : row < 32) :
    spriteRow cy row = k ↔ (cy + k) % 32 = row := by
  unfold spriteRow; omega

/-- The first `m` bits of a sprite byte: which pixels they have flipped, and whether they have collided. -/
theorem drawBits_spec (cx cy yl : Nat) (b : Byte) (d : Drawing) :
    ∀ m ≤ 8,
      (∀ row < 32, ∀ col < 64, ((List.range m).foldl (drawBit cx cy yl b) d).fb.pixel row col =
        (d.fb.pixel row col ^^ (decide (row = (cy + yl) % 32) && decide (spriteColumn cx col < m) &&
          b.getLsbD (7 - spriteColumn cx col)))) ∧
      (((List.range m).foldl (drawBit cx cy yl b) d).hit = true ↔
        d.hit = true ∨ ∃ k < m, b.getLsbD (7 - k) = true ∧ d.fb.pixel ((cy + yl) % 32) ((cx + k) % 64) = true) := by
  intro m
  induction m with
  | zero => intro _; simp
  | succ m ih =>
    intro hm
    obtain ⟨ihp, ihh⟩ := ih (by omega)
    rw [List.range_succ, List.foldl_append]
    generalize (List.range m).foldl (drawBit cx cy yl b) d = e at ihp ihh
    have hr : (cy + yl) % 32 < 32 := Nat.mod_lt _ (by omega)
    have hc : (cx + m) % 64 < 64 := Nat.mod_lt _ (by omega)
    have hself : spriteColumn cx ((cx + m) % 64) = m := (spriteColumn_eq_iff (by omega) hc).2 rfl
    have hold : e.fb.pixel ((cy + yl) % 32) ((cx + m) % 64) = d.fb.pixel ((cy + yl) % 32) ((cx + m) % 64) := by
      rw [ihp _ hr _ hc, hself]; simp
    simp only [List.foldl_cons, List.foldl_nil, drawBit, Config.rows, Config.columns]
    by_cases hb : b.getLsbD (7 - m) = true
    · rw [if_pos hb]
      constructor
      · intro row hrow col hcol
        rw [Framebuffer.pixel_flip _ _ _ _ _ hr hc hcol, ihp row hrow col hcol]
        have hiff := spriteColumn_eq_iff (cx := cx) (k := m) (by omega) hcol
        by_cases h1 : row = (cy + yl) % 32
        · by_cases h2 : spriteColumn cx col = m
          · have h3 := (hiff.1 h2).symm
            simp [h1, h2, h3.symm, hb]
          · have h3 : ¬ col = (cx + m) % 64 := fun h => h2 (hiff.2 h.symm)
            have h4 : (spriteColumn cx col < m + 1) ↔ (spriteColumn cx col < m) := by omega
            simp [h1, h3, h4]
        · simp [h1]
      · simp only [Bool.or_eq_true, ihh, hold]
        constructor
        · rintro ((h | ⟨k, hk, h⟩) | h)
          · exact .inl h
          · exact .inr ⟨k, by omega, h⟩
          · exact .inr ⟨m, by omega, hb, h⟩
        · rintro (h | ⟨k, hk, h⟩)
          · exact .inl (.inl h)
          · by_cases hkm : k = m
            · subst hkm; exact .inr h.2
            · exact .inl (.inr ⟨k, by omega, h⟩)
    · rw [if_neg hb]
      constructor
      · intro row hrow col hcol
        rw [ihp row hrow col hcol]
        by_cases h2 : spriteColumn cx col = m
        · simp [h2, hb]
        · have h4 : (spriteColumn cx col < m + 1) ↔ (spriteColumn cx col < m) := by omega
          simp [h4]
      · rw [ihh]
        constructor
        · rintro (h | ⟨k, hk, h⟩)
          · exact .inl h
          · exact .inr ⟨k, by omega, h⟩
        · rintro (h | ⟨k, hk, h⟩)
          · exact .inl h
          · have hkm : k ≠ m := by rintro rfl; exact hb h.1
            exact .inr ⟨k, by omega, h⟩

/-- One sprite byte: which pixels it flips (R151). -/
theorem drawRow_pixel (cx cy yl : Nat) (b : Byte) (d : Drawing) {row col : Nat} (hrow : row < 32) (hcol : col < 64) :
    (drawRow cx cy yl b d).fb.pixel row col =
      (d.fb.pixel row col ^^ (decide (row = (cy + yl) % 32) && decide (spriteColumn cx col < 8) &&
        b.getLsbD (7 - spriteColumn cx col))) :=
  (drawBits_spec cx cy yl b d 8 (Nat.le_refl 8)).1 row hrow col hcol

/-- One sprite byte: when it collides (R151). -/
theorem drawRow_hit (cx cy yl : Nat) (b : Byte) (d : Drawing) :
    (drawRow cx cy yl b d).hit = true ↔
      d.hit = true ∨ ∃ k < 8, b.getLsbD (7 - k) = true ∧ d.fb.pixel ((cy + yl) % 32) ((cx + k) % 64) = true :=
  (drawBits_spec cx cy yl b d 8 (Nat.le_refl 8)).2

/-- The rows from `yl` on: which pixels they flip, no pixel being met twice. -/
theorem drawRows_pixel (cx cy : Nat) {row col : Nat} (hrow : row < 32) (hcol : col < 64) :
    ∀ (bytes : List Byte) (yl : Nat) (d : Drawing), yl + bytes.length ≤ 32 →
      (drawRows cx cy yl bytes d).fb.pixel row col =
        (d.fb.pixel row col ^^ (decide (yl ≤ spriteRow cy row ∧ spriteRow cy row < yl + bytes.length) &&
          decide (spriteColumn cx col < 8) &&
          (bytes.getD (spriteRow cy row - yl) 0).getLsbD (7 - spriteColumn cx col)))
  | [], yl, d, _ => by
    have : ¬ (yl ≤ spriteRow cy row ∧ spriteRow cy row < yl) := by omega
    simp [drawRows, this]
  | b :: bs, yl, d, hlen => by
    simp only [List.length_cons] at hlen
    rw [drawRows, drawRows_pixel cx cy hrow hcol bs (yl + 1) _ (by omega), drawRow_pixel _ _ _ _ _ hrow hcol]
    have hiff := spriteRow_eq_iff (cy := cy) (k := yl) (by omega) hrow
    by_cases h : spriteRow cy row = yl
    · have h1 : row = (cy + yl) % 32 := (hiff.1 h).symm
      have h2 : ¬ (yl + 1 ≤ spriteRow cy row ∧ spriteRow cy row < yl + 1 + bs.length) := by omega
      have h3 : yl ≤ spriteRow cy row ∧ spriteRow cy row < yl + (b :: bs).length := by simp [h]
      rw [decide_eq_true h1, decide_eq_false h2, decide_eq_true h3, h]
      simp
    · have h1 : ¬ row = (cy + yl) % 32 := fun e => h (hiff.2 e.symm)
      rw [decide_eq_false h1]
      by_cases h2 : yl + 1 ≤ spriteRow cy row ∧ spriteRow cy row < yl + 1 + bs.length
      · have h3 : yl ≤ spriteRow cy row ∧ spriteRow cy row < yl + (b :: bs).length := by simp; omega
        have h4 : spriteRow cy row - yl = (spriteRow cy row - (yl + 1)) + 1 := by omega
        rw [decide_eq_true h2, decide_eq_true h3, h4]
        simp
      · have h3 : ¬ (yl ≤ spriteRow cy row ∧ spriteRow cy row < yl + (b :: bs).length) := by simp; omega
        rw [decide_eq_false h2, decide_eq_false h3]
        simp

/-- The rows from `yl` on: when they collide, in terms of the framebuffer before them. -/
theorem drawRows_hit (cx cy : Nat) :
    ∀ (bytes : List Byte) (yl : Nat) (d : Drawing), yl + bytes.length ≤ 32 →
      ((drawRows cx cy yl bytes d).hit = true ↔ d.hit = true ∨ ∃ j < bytes.length, ∃ k < 8,
        (bytes.getD j 0).getLsbD (7 - k) = true ∧ d.fb.pixel ((cy + yl + j) % 32) ((cx + k) % 64) = true)
  | [], yl, d, _ => by simp [drawRows]
  | b :: bs, yl, d, hlen => by
    simp only [List.length_cons] at hlen
    rw [drawRows, drawRows_hit cx cy bs (yl + 1) _ (by omega), drawRow_hit]
    have hkeep : ∀ j < bs.length, ∀ k, (drawRow cx cy yl b d).fb.pixel ((cy + (yl + 1) + j) % 32) ((cx + k) % 64) =
        d.fb.pixel ((cy + yl + (j + 1)) % 32) ((cx + k) % 64) := by
      intro j hj k
      rw [drawRow_pixel _ _ _ _ _ (Nat.mod_lt _ (by omega)) (Nat.mod_lt _ (by omega))]
      have hne : ¬ (cy + (yl + 1) + j) % 32 = (cy + yl) % 32 := by omega
      have he : cy + (yl + 1) + j = cy + yl + (j + 1) := by omega
      rw [decide_eq_false hne, he]
      simp
    constructor
    · rintro ((h | ⟨k, hk, h⟩) | ⟨j, hj, k, hk, hb, hp⟩)
      · exact .inl h
      · exact .inr ⟨0, by simp, k, hk, by simpa using h⟩
      · rw [hkeep j hj k] at hp
        exact .inr ⟨j + 1, by simp; omega, k, hk, by simpa using hb, hp⟩
    · rintro (h | ⟨j, hj, k, hk, hb, hp⟩)
      · exact .inl (.inl h)
      · cases j with
        | zero => exact .inl (.inr ⟨k, hk, by simpa using hb, by simpa using hp⟩)
        | succ j =>
          simp only [List.length_cons] at hj
          refine .inr ⟨j, by omega, k, hk, by simpa using hb, ?_⟩
          rw [hkeep j (by omega) k]
          exact hp

/-- The whole sprite: a pixel is flipped exactly when a 1 bit of the sprite falls on it (R151). -/
theorem drawSprite_pixel (cx cy : Nat) (bytes : List Byte) (fb : Framebuffer) (hlen : bytes.length ≤ 32)
    {row col : Nat} (hrow : row < 32) (hcol : col < 64) :
    (drawSprite cx cy bytes fb).fb.pixel row col =
      (fb.pixel row col ^^ (decide (spriteRow cy row < bytes.length) && decide (spriteColumn cx col < 8) &&
        (bytes.getD (spriteRow cy row) 0).getLsbD (7 - spriteColumn cx col))) := by
  rw [drawSprite, drawRows_pixel cx cy hrow hcol bytes 0 _ (by omega)]
  simp

/-- The whole sprite: it collides exactly when a 1 bit of it falls on a pixel that was on (R151). -/
theorem drawSprite_hit (cx cy : Nat) (bytes : List Byte) (fb : Framebuffer) (hlen : bytes.length ≤ 32) :
    (drawSprite cx cy bytes fb).hit = true ↔ ∃ j < bytes.length, ∃ k < 8,
      (bytes.getD j 0).getLsbD (7 - k) = true ∧ fb.pixel ((cy + j) % 32) ((cx + k) % 64) = true := by
  rw [drawSprite, drawRows_hit cx cy bytes 0 _ (by omega)]
  simp

end Sys2Proof.Machine
end

