-- ==== Sys2Proof/Laws/Exec.lean ====
section
/-! SUPPORT. What the execute phase can do, said once: it raises the one fatal error the instruction's rule names, or
it completes; and what a completed instruction leaves of the state that no result rule speaks of. -/

namespace Sys2Proof.Machine

/-- The fatal error an instruction's own rule raises in a state, if any (R100, R102, R151, R160, R161, R175 to R177). -/
def raisedBy (i : Instr) (s : State) : Option FatalError :=
  match i with
  | .ret => if s.sp.val = 0 then some (.stackUnderflow s.sp) else none
  | .call _ => if s.sp.val = 16 then some (.stackOverflow s.sp) else none
  | .skp x | .sknp x => if (s.reg x).toNat > 15 then some (.keyIndexError s.pc (s.reg x)) else none
  | .drw _ _ n =>
    if n.toNat ≠ 0 ∧ s.i.toNat + n.toNat > 4096 then some (.addressError s.pc (max s.i.toNat 4096)) else none
  | .ldBVx _ => if s.i.toNat + 3 > 4096 then some (.addressError s.pc (max s.i.toNat 4096)) else none
  | .storeRegs x | .loadRegs x =>
    if s.i.toNat + (x.val + 1) > 4096 then some (.addressError s.pc (max s.i.toNat 4096)) else none
  | .cls | .jmp _ | .jmpV0 _ | .ldI _ | .seImm _ _ | .sneImm _ _ | .seReg _ _ | .sneReg _ _ => none
  | .ldImm _ _ | .addImm _ _ | .rnd _ _ | .ldVxDt _ => none
  | .ldReg _ _ | .orReg _ _ | .andReg _ _ | .xorReg _ _ => none
  | .addReg _ _ | .subReg _ _ | .shr _ | .subnReg _ _ | .shl _ => none
  | .addIVx _ | .ldFVx _ | .ldDtVx _ | .ldStVx _ | .ldVxK _ => none

/-- What every completed instruction leaves alone, whatever it computes. -/
structure Completed (i : Instr) (s t : State) : Prop where
  halted : t.halted = s.halted
  err : t.err = s.err
  keys : t.keys = s.keys
  inputs : t.inputs = s.inputs
  cycle : t.cycle = s.cycle
  out : t.out = s.out ++ (if i = .cls then [.clear] else [])

/-- A range check either raises what it names or goes on. -/
theorem guardRange_split {base len : Nat} {s done : State} (c : Prop) [Decidable c]
    (hc : c ↔ (len ≠ 0 ∧ base + len > 4096)) {i : Instr} (hdone : Completed i s done) :
    (∃ e, (if c then some (FatalError.addressError s.pc (max base 4096)) else none) = some e ∧
      guardRange base len s done = .next (s.halt e)) ∨
    ((if c then some (FatalError.addressError s.pc (max base 4096)) else none) = none ∧
      ∃ t, guardRange base len s done = .next t ∧ Completed i s t) := by
  by_cases h : c
  · exact .inl ⟨_, by rw [if_pos h], guardRange_outside (hc.1 h).1 (hc.1 h).2⟩
  · refine .inr ⟨by rw [if_neg h], done, guardRange_inside ?_, hdone⟩
    have := mt hc.2 h
    simp only [memSize_eq]
    omega

/-- A key check either raises what it names or goes on. -/
theorem guardKey_split {value : Byte} {s done : State} {i : Instr} (hdone : Completed i s done) :
    (∃ e, (if value.toNat > 15 then some (FatalError.keyIndexError s.pc value) else none) = some e ∧
      guardKey value s done = .next (s.halt e)) ∨
    ((if value.toNat > 15 then some (FatalError.keyIndexError s.pc value) else none) = none ∧
      ∃ t, guardKey value s done = .next t ∧ Completed i s t) := by
  by_cases h : value.toNat > 15
  · exact .inl ⟨_, by rw [if_pos h], guardKey_outside h⟩
  · exact .inr ⟨by rw [if_neg h], done, guardKey_inside (by omega), hdone⟩

/-- The execute phase raises the error its rule names, or completes (R85, R90). -/
theorem exec_cases (i : Instr) (s : State) :
    (∃ e, raisedBy i s = some e ∧ exec i s = .next (s.halt e)) ∨
    (raisedBy i s = none ∧ ∃ t, exec i s = .next t ∧ Completed i s t) := by
  have plain : ∀ t : State, t.halted = s.halted → t.err = s.err → t.keys = s.keys → t.inputs = s.inputs →
      t.cycle = s.cycle → t.out = s.out → i ≠ .cls → Completed i s t :=
    fun t h1 h2 h3 h4 h5 h6 h7 => ⟨h1, h2, h3, h4, h5, by simp [h6, h7]⟩
  cases i with
  | cls => exact .inr ⟨rfl, _, rfl, rfl, rfl, rfl, rfl, rfl, rfl⟩
  | ret =>
    by_cases h : s.sp.val = 0
    · exact .inl ⟨.stackUnderflow s.sp, by simp [raisedBy, h], by simp [exec, execRet, h]⟩
    · exact .inr ⟨by simp [raisedBy, h], _, dif_pos (Nat.pos_of_ne_zero h),
        plain _ rfl rfl rfl rfl rfl rfl (by simp)⟩
  | call nnn =>
    have hsp := s.sp.isLt
    by_cases h : s.sp.val = 16
    · exact .inl ⟨.stackOverflow s.sp, by simp [raisedBy, h], by simp [exec, execCall, h]⟩
    · have h' : s.sp.val < 16 := by omega
      exact .inr ⟨by simp [raisedBy, h], _, dif_pos h',
        plain _ rfl rfl rfl rfl rfl rfl (by simp)⟩
  | skp x => exact guardKey_split (plain _ rfl rfl rfl rfl rfl rfl (by simp))
  | sknp x => exact guardKey_split (plain _ rfl rfl rfl rfl rfl rfl (by simp))
  | drw x y n => exact guardRange_split _ Iff.rfl (plain _ rfl rfl rfl rfl rfl rfl (by simp))
  | ldBVx x => exact guardRange_split _ (by simp) (plain _ rfl rfl rfl rfl rfl rfl (by simp))
  | storeRegs x => exact guardRange_split _ (by simp) (plain _ rfl rfl rfl rfl rfl rfl (by simp))
  | loadRegs x => exact guardRange_split _ (by simp) (plain _ rfl rfl rfl rfl rfl rfl (by simp))
  | jmp | jmpV0 | ldI | seImm | sneImm | seReg | sneReg | ldImm | addImm | rnd | ldVxDt | ldReg | orReg | andReg
  | xorReg | addReg | subReg | shr | subnReg | shl | addIVx | ldFVx | ldDtVx | ldStVx | ldVxK =>
    exact .inr ⟨rfl, _, rfl, plain _ rfl rfl rfl rfl rfl rfl (by simp)⟩

/-- The execute phase on a state that is not halted: it ends halted exactly when it raised (R90). -/
theorem exec_halted_iff {i : Instr} {s t : State} (hs : s.halted = false) (h : exec i s = .next t) :
    t.halted = true ↔ ∃ e, raisedBy i s = some e ∧ t = s.halt e := by
  rcases exec_cases i s with ⟨e, he, hx⟩ | ⟨hn, u, hx, hc⟩
  · rw [hx] at h; cases h
    simp [he]
  · rw [hx] at h; cases h
    simp [hn, hc.halted, hs]

/-- A property of the execute phase holds in general when it holds of the state a fatal error leaves and of every
state a completed instruction leaves. -/
theorem exec_property {P : Instr → State → State → Prop} (raised : ∀ i s e, P i s (s.halt e))
    (completed : ∀ i s t, exec i s = .next t → raisedBy i s = none → P i s t) (i : Instr) (s t : State)
    (h : exec i s = .next t) : P i s t := by
  rcases exec_cases i s with ⟨e, _, hx⟩ | ⟨hn, _, _, _⟩
  · rw [hx] at h; cases h
    exact raised i s e
  · exact completed i s t h hn

/-- An instruction that did not end halted raised nothing. -/
theorem raisedBy_none_of_goesOn {i : Instr} {s t : State} (h : exec i s = .next t) (ht : t.halted = false) :
    raisedBy i s = none := by
  rcases exec_cases i s with ⟨e, _, hx⟩ | ⟨hn, _, _, _⟩
  · rw [hx] at h; cases h
    simp at ht
  · exact hn

/-- The state left by each instruction that checks something first, once the check is passed; the other instructions
have no check, and their meaning is that state. -/
def CompletedForm (i : Instr) (s t : State) : Prop :=
  match i with
  | .ret => ∃ used : 0 < s.sp.val, t = s.pop.setPc (s.top used + 2)
  | .call nnn => ∃ room : s.sp.val < 16, t = (s.push s.pc room).setPc (zext16 nnn)
  | .skp x => (s.reg x).toNat ≤ 15 ∧ t = s.skipIf (s.keyDown (s.reg x).toNat)
  | .sknp x => (s.reg x).toNat ≤ 15 ∧ t = s.skipIf (!s.keyDown (s.reg x).toNat)
  | .drw x y n =>
    t = ({ s with fb := (s.drawn x y n).fb, draw := true }.setReg vf (flagByte (s.drawn x y n).hit)).advance
  | .ldBVx x => s.i.toNat + 3 ≤ 4096 ∧ t = (s.store (s.address 0) (bcdDigits (s.reg x))).advance
  | .storeRegs x => s.i.toNat + (x.val + 1) ≤ 4096 ∧ t = (s.store (s.address 0) (s.regsUpTo x)).advance
  | .loadRegs x => s.i.toNat + (x.val + 1) ≤ 4096 ∧ t = (s.loadRun (s.address 0) x).advance
  | i => exec i s = .next t

/-- What a completed instruction leaves, in its exact form. -/
theorem exec_completed_form {i : Instr} {s t : State} (h : exec i s = .next t) (hn : raisedBy i s = none) :
    CompletedForm i s t := by
  cases i <;> simp only [raisedBy, CompletedForm] at hn ⊢
  case ret =>
    have used : 0 < s.sp.val := by split at hn <;> [cases hn; omega]
    exact ⟨used, by simp [exec, execRet, used] at h; exact h.symm⟩
  case call =>
    have := s.sp.isLt
    have room : s.sp.val < 16 := by split at hn <;> [cases hn; omega]
    exact ⟨room, by simp [exec, execCall, room] at h; exact h.symm⟩
  case skp | sknp =>
    rcases guardKey_cases h with h1 | ⟨h1, _⟩
    · exact h1
    · simp [h1] at hn
  case drw =>
    rcases guardRange_cases h with ⟨_, h2⟩ | ⟨h1, _⟩
    · exact h2
    · simp [State.address] at h1
      simp [h1] at hn
  case ldBVx | storeRegs | loadRegs =>
    rcases guardRange_cases h with ⟨h1, h2⟩ | ⟨h1, _⟩
    · exact ⟨by simp [State.address] at h1; omega, h2⟩
    · simp [State.address] at h1
      simp [h1] at hn
  all_goals exact h

/-! ### The cycle -/

/-- A normal cycle that fetches an instruction (R80). -/
theorem step_of_decode {s : State} {i : Instr} (hf : s.Fetches) (hd : decodeWord s.fetchWord = .ok i) :
    step s = finishCycle (exec i s.begin) := by
  obtain ⟨h1, h2, h3⟩ := hf
  have h4 : s.begin.pc.toNat + 1 < Config.memSize := by simp; omega
  simp only [step, h1, h2, normalCycle, fetchAndRun, if_pos h4, runWord, State.fetchWord_begin, hd]
  rfl

/-- A normal cycle that fetches a word of no instruction (R93). -/
theorem step_of_reject {s : State} {e : DecodeReject} (hf : s.Fetches) (hd : decodeWord s.fetchWord = .error e) :
    step s = .next (s.begin.halt (.decodeError s.pc s.fetchWord)) := by
  obtain ⟨h1, h2, h3⟩ := hf
  have h4 : s.begin.pc.toNat + 1 < Config.memSize := by simp; omega
  simp only [step, h1, h2, normalCycle, fetchAndRun, if_pos h4, runWord, State.fetchWord_begin, hd, raise_eq,
    finishCycle, State.halt_halted, if_true]
  rfl

/-- A cycle whose PC lies above 0xFFE (R83). -/
theorem step_of_far_pc {s : State} (h1 : s.halted = false) (h2 : s.waiting = false) (h3 : s.pc.toNat > 0xFFE) :
    step s = .next (s.begin.halt (.addressError s.pc (max s.pc.toNat 4096))) := by
  have h4 : ¬ s.begin.pc.toNat + 1 < Config.memSize := by simp; omega
  simp only [step, h1, h2, normalCycle, fetchAndRun, if_neg h4, raise_eq, finishCycle, State.halt_halted, if_true]
  rfl

/-- What one step can do, said once (R80): nothing, a wait cycle, one of the three kinds of fatal error, or a normal
cycle to its end. -/
theorem step_cases (s : State) :
    (s.halted = true ∧ step s = .next s.haltedCycle) ∨
    (s.halted = false ∧ s.waiting = true ∧ step s = .next s.waitCycle) ∨
    (s.halted = false ∧ s.waiting = false ∧ s.pc.toNat > 0xFFE ∧
      step s = .next (s.begin.halt (.addressError s.pc (max s.pc.toNat 4096)))) ∨
    (s.Fetches ∧ (∃ e, decodeWord s.fetchWord = .error e) ∧
      step s = .next (s.begin.halt (.decodeError s.pc s.fetchWord))) ∨
    (s.Fetches ∧ ∃ i e, decodeWord s.fetchWord = .ok i ∧ raisedBy i s.begin = some e ∧
      step s = .next (s.begin.halt e)) ∨
    (∃ i u, NormalCycle s i u ∧ Completed i s.begin u ∧ step s = .next u.endCycle) := by
  by_cases h1 : s.halted = true
  · exact .inl ⟨h1, by simp [step, h1]⟩
  · have h1 : s.halted = false := by simpa using h1
    refine .inr ?_
    by_cases h2 : s.waiting = true
    · exact .inl ⟨h1, h2, by simp [step, h1, h2]⟩
    · have h2 : s.waiting = false := by simpa using h2
      refine .inr ?_
      by_cases h3 : s.pc.toNat > 0xFFE
      · exact .inl ⟨h1, h2, h3, step_of_far_pc h1 h2 h3⟩
      · refine .inr ?_
        have hf : s.Fetches := ⟨h1, h2, by omega⟩
        cases hd : decodeWord s.fetchWord with
        | error e => exact .inl ⟨hf, ⟨e, rfl⟩, step_of_reject hf hd⟩
        | ok i =>
          refine .inr ?_
          have hstep := step_of_decode hf hd
          rcases exec_cases i s.begin with ⟨e, he, hx⟩ | ⟨hn, u, hx, hc⟩
          · exact .inl ⟨hf, i, e, rfl, he, by rw [hstep, hx]; simp [finishCycle]⟩
          · have hu : u.halted = false := by rw [hc.halted]; exact h1
            exact .inr ⟨i, u, ⟨hf, hd, hx, hu⟩, hc, by rw [hstep, hx]; simp [finishCycle, hu]⟩

/-- A normal cycle without a fatal error ends with the timer, display and key phases of what execute left. -/
theorem NormalCycle.step_eq {s u : State} {i : Instr} (h : NormalCycle s i u) : step s = .next u.endCycle := by
  rw [step_of_decode h.fetches h.decodes, h.runs]
  simp [finishCycle, h.goesOn]

/-- A timer's new count: one less, and 0 stays 0 (R86). -/
@[simp] theorem countDown_toNat (b : Byte) : (countDown b).toNat = b.toNat - 1 := by
  unfold countDown
  split
  · have := b.isLt
    simp [BitVec.toNat_sub]
    omega
  · omega

/-- A run whose first step goes on. -/
theorem run_succ_of_next {M : Host.Core} {k : Nat} {s t : M.State} (h : M.step s = .next t) :
    M.run (k + 1) s = M.run k t := by
  rw [Host.Core.run, h]

/-- What storing bytes from I up leaves at each address, in the terms the statements use. -/
theorem State.read_store_at_I (s : State) (bytes : List Byte) (a : Nat) :
    (s.store (s.address 0) bytes).mem.read a = s.byteUnderStore bytes.length (fun j => bytes.getD j 0) a := by
  simp only [State.store_mem, Memory.read_writeRun, State.byteUnderStore, State.address, Nat.add_zero]

/-- PROG_BASE and MAX_PROG as numerals. -/
@[simp] theorem progBase_eq : Config.progBase = 512 := rfl
@[simp] theorem maxProgram_eq : Config.maxProgram = 3584 := rfl

end Sys2Proof.Machine
end

