-- ==== Sys2Proof/Laws/PerInstr.lean ====
section
/-! SUPPORT. The family made per instruction: every instruction assembles to a word that its own row of the opcode map
selects (spec/30_encoding.md R64, R70), so the encoder and the map agree on every fixed bit. -/

namespace Sys2Proof.Laws.EncodingInRow

/-- The row of the opcode map with the instruction's mnemonic selects the word the instruction assembles to. -/
def Statement (i : Instr) : Prop := ∃ r ∈ opcodeTable, r.mnemonic = i.mnemonic ∧ r.selects (encode i) = true

/-- What a constructor's proof gives: its row's place in the map, the row's name, and the masked word. -/
theorem intro {i : Instr} (k : Fin 34) (hn : (opcodeTable[k.val]'k.isLt).mnemonic = i.mnemonic)
    (hw : encode i &&& (opcodeTable[k.val]'k.isLt).mask = (opcodeTable[k.val]'k.isLt).pattern) : Statement i :=
  ⟨opcodeTable[k.val]'k.isLt, List.getElem_mem k.isLt, hn, beq_iff_eq.2 hw⟩

theorem cls : Statement (.cls) := intro 0 rfl (by decide)
theorem ret : Statement (.ret) := intro 1 rfl (by decide)
theorem jmp (nnn : Imm12) : Statement (.jmp nnn) := intro 2 rfl (wordNNN_mask _ nnn)
theorem call (nnn : Imm12) : Statement (.call nnn) := intro 3 rfl (wordNNN_mask _ nnn)
theorem seImm (x : Reg) (kk : Byte) : Statement (.seImm x kk) := intro 4 rfl (wordXKK_mask _ x kk)
theorem sneImm (x : Reg) (kk : Byte) : Statement (.sneImm x kk) := intro 5 rfl (wordXKK_mask _ x kk)
theorem seReg (x : Reg) (y : Reg) : Statement (.seReg x y) := intro 6 rfl (wordXYN_mask_n _ x y _)
theorem ldImm (x : Reg) (kk : Byte) : Statement (.ldImm x kk) := intro 7 rfl (wordXKK_mask _ x kk)
theorem addImm (x : Reg) (kk : Byte) : Statement (.addImm x kk) := intro 8 rfl (wordXKK_mask _ x kk)
theorem ldReg (x : Reg) (y : Reg) : Statement (.ldReg x y) := intro 9 rfl (wordXYN_mask_n _ x y _)
theorem orReg (x : Reg) (y : Reg) : Statement (.orReg x y) := intro 10 rfl (wordXYN_mask_n _ x y _)
theorem andReg (x : Reg) (y : Reg) : Statement (.andReg x y) := intro 11 rfl (wordXYN_mask_n _ x y _)
theorem xorReg (x : Reg) (y : Reg) : Statement (.xorReg x y) := intro 12 rfl (wordXYN_mask_n _ x y _)
theorem addReg (x : Reg) (y : Reg) : Statement (.addReg x y) := intro 13 rfl (wordXYN_mask_n _ x y _)
theorem subReg (x : Reg) (y : Reg) : Statement (.subReg x y) := intro 14 rfl (wordXYN_mask_n _ x y _)
theorem shr (x : Reg) : Statement (.shr x) := intro 15 rfl (wordXYN_mask_n _ x 0 _)
theorem subnReg (x : Reg) (y : Reg) : Statement (.subnReg x y) := intro 16 rfl (wordXYN_mask_n _ x y _)
theorem shl (x : Reg) : Statement (.shl x) := intro 17 rfl (wordXYN_mask_n _ x 0 _)
theorem sneReg (x : Reg) (y : Reg) : Statement (.sneReg x y) := intro 18 rfl (wordXYN_mask_n _ x y _)
theorem ldI (nnn : Imm12) : Statement (.ldI nnn) := intro 19 rfl (wordNNN_mask _ nnn)
theorem jmpV0 (nnn : Imm12) : Statement (.jmpV0 nnn) := intro 20 rfl (wordNNN_mask _ nnn)
theorem rnd (x : Reg) (kk : Byte) : Statement (.rnd x kk) := intro 21 rfl (wordXKK_mask _ x kk)
theorem drw (x : Reg) (y : Reg) (n : Nibble) : Statement (.drw x y n) := intro 22 rfl (wordXYN_mask _ x y n)
theorem skp (x : Reg) : Statement (.skp x) := intro 23 rfl (wordXKK_mask_kk _ x _)
theorem sknp (x : Reg) : Statement (.sknp x) := intro 24 rfl (wordXKK_mask_kk _ x _)
theorem ldVxDt (x : Reg) : Statement (.ldVxDt x) := intro 25 rfl (wordXKK_mask_kk _ x _)
theorem ldVxK (x : Reg) : Statement (.ldVxK x) := intro 26 rfl (wordXKK_mask_kk _ x _)
theorem ldDtVx (x : Reg) : Statement (.ldDtVx x) := intro 27 rfl (wordXKK_mask_kk _ x _)
theorem ldStVx (x : Reg) : Statement (.ldStVx x) := intro 28 rfl (wordXKK_mask_kk _ x _)
theorem addIVx (x : Reg) : Statement (.addIVx x) := intro 29 rfl (wordXKK_mask_kk _ x _)
theorem ldFVx (x : Reg) : Statement (.ldFVx x) := intro 30 rfl (wordXKK_mask_kk _ x _)
theorem ldBVx (x : Reg) : Statement (.ldBVx x) := intro 31 rfl (wordXKK_mask_kk _ x _)
theorem storeRegs (x : Reg) : Statement (.storeRegs x) := intro 32 rfl (wordXKK_mask_kk _ x _)
theorem loadRegs (x : Reg) : Statement (.loadRegs x) := intro 33 rfl (wordXKK_mask_kk _ x _)

end Sys2Proof.Laws.EncodingInRow
end

