-- ==== Sys2Proof/Tests/Slice0.lean ====
section
/-! SUPPORT. Tests of one step each, their expected values from spec/95_test_vectors.md (the vector's id stands in the
docstring), decoding of words written out from the patterns of R64, the smoke test of WellFormed, and one witness for
every statement with hypotheses. -/

namespace Sys2Proof.Tests

open Sys2Proof.Machine

set_option Elab.async false

/-! ## Helpers -/

/-- The next state a result holds, if it does. -/
def nextOf : Result → Option State
  | .next t => some t
  | .fault _ => none
  | .refused _ => none

/-- The next state a result holds, else `s`. -/
def ranTo (r : Result) (s : State) : State := (nextOf r).getD s

/-- A result whose next state evaluates is that next state. -/
theorem eq_next_ranTo {r : Result} (s : State) (h : (nextOf r).isSome = true) : r = .next (ranTo r s) := by
  cases r with
  | next t => rfl
  | fault r => cases r
  | refused r => simp [nextOf] at h

/-- Reset with all keys up and an input of the test's own for the first cycle: keys 0x0800 down, no event, random byte
0xB7. -/
def base : State := { State.resetWith 0 with inputs := [⟨0x0800, none, 0xB7⟩] }

/-- `base` with a word at 0x200. -/
def at200 (w : Word) : State := base.store 0x200 [highByte w, lowByte w]

/-- `at200` with V1 and V2. -/
def alu (w : Word) (v1 v2 : Byte) : State := ((at200 w).setReg 1 v1).setReg 2 v2

/-- `at200` with V0, V1 and I. -/
def moved (w : Word) (v0 v1 : Byte) (i : Word) : State := (((at200 w).setReg 0 v0).setReg 1 v1).setI i

/-- The state after one step. -/
def after (s : State) : State := ranTo (step s) s

/-- The pixels that are on among the given ones. -/
def litOf (fb : Framebuffer) (ps : List (Nat × Nat)) : Bool := ps.all (fun p => fb.pixel p.1 p.2)

/-! ## Decoding: words written out from the patterns of R64 -/

theorem test_decode_control :
    decodeWord 0b0000000011100000 = .ok .cls ∧ decodeWord 0b0000000011101110 = .ok .ret ∧
    decodeWord 0b0001101010111100 = .ok (.jmp 0xABC) ∧ decodeWord 0b0010001000001100 = .ok (.call 0x20C) ∧
    decodeWord 0b1011001100000000 = .ok (.jmpV0 0x300) := by decide

theorem test_decode_skips :
    decodeWord 0b0011001100101010 = .ok (.seImm 3 0x2A) ∧ decodeWord 0b0100001100101010 = .ok (.sneImm 3 0x2A) ∧
    decodeWord 0b0101000100100000 = .ok (.seReg 1 2) ∧ decodeWord 0b1001000100100000 = .ok (.sneReg 1 2) := by decide

theorem test_decode_immediate :
    decodeWord 0b0110000000000101 = .ok (.ldImm 0 5) ∧ decodeWord 0b0111000000000011 = .ok (.addImm 0 3) ∧
    decodeWord 0b1010001011110000 = .ok (.ldI 0x2F0) ∧ decodeWord 0b1100010000001111 = .ok (.rnd 4 0x0F) := by decide

theorem test_decode_alu :
    decodeWord 0b1000000100100000 = .ok (.ldReg 1 2) ∧ decodeWord 0b1000000100100001 = .ok (.orReg 1 2) ∧
    decodeWord 0b1000000100100010 = .ok (.andReg 1 2) ∧ decodeWord 0b1000000100100011 = .ok (.xorReg 1 2) ∧
    decodeWord 0b1000000100100100 = .ok (.addReg 1 2) ∧ decodeWord 0b1000000100100101 = .ok (.subReg 1 2) ∧
    decodeWord 0b1000000100100110 = .ok (.shr 1) ∧ decodeWord 0b1000000100100111 = .ok (.subnReg 1 2) ∧
    decodeWord 0b1000000100101110 = .ok (.shl 1) := by decide

theorem test_decode_display_keypad :
    decodeWord 0b1101010110100011 = .ok (.drw 5 0xA 3) ∧ decodeWord 0b1110001010011110 = .ok (.skp 2) ∧
    decodeWord 0b1110001010100001 = .ok (.sknp 2) ∧ decodeWord 0b1111001100001010 = .ok (.ldVxK 3) := by decide

theorem test_decode_transfers :
    decodeWord 0b1111000100000111 = .ok (.ldVxDt 1) ∧ decodeWord 0b1111000000010101 = .ok (.ldDtVx 0) ∧
    decodeWord 0b1111001000011000 = .ok (.ldStVx 2) ∧ decodeWord 0b1111000100011110 = .ok (.addIVx 1) ∧
    decodeWord 0b1111000000101001 = .ok (.ldFVx 0) ∧ decodeWord 0b1111001100110011 = .ok (.ldBVx 3) ∧
    decodeWord 0b1111001001010101 = .ok (.storeRegs 2) ∧ decodeWord 0b1111001001100101 = .ok (.loadRegs 2) := by decide

/-- The bytes in memory order, high byte first (E15). -/
theorem test_decode_bytes :
    decodeBytes [0xA2, 0xF0, 0x12] = .ok (.ldI 0x2F0, [0x12]) ∧ decodeBytes [0xA2] = .error .truncated ∧
    decodeTableWord 16 0xA2F0 = some (.ldI 0x2F0) := by decide

/-! ## WellFormed: each check refuses an ill-formed term (E1 to E9, Z1, Z2) -/

theorem smoke_wellFormedWord_refuses :
    wellFormedWord 0x0000 = false ∧ wellFormedWord 0x00E1 = false ∧ wellFormedWord 0x0123 = false ∧
    wellFormedWord 0x5121 = false ∧ wellFormedWord 0x8128 = false ∧ wellFormedWord 0x812F = false ∧
    wellFormedWord 0x9001 = false ∧ wellFormedWord 0xE19F = false ∧ wellFormedWord 0xF1FF = false ∧
    wellFormedWord 0xF000 = false ∧ wellFormedWord 0xFFFF = false ∧ wellFormedWord 0xFF65 = true := by decide

theorem smoke_wellFormedProgram_refuses :
    wellFormedProgram (List.replicate 3585 0) = false ∧ wellFormedProgram (List.replicate 3584 0) = true := by
  simp only [wellFormedProgram, List.length_replicate]
  decide

/-! ## One step of each instruction -/

/-- G1: CLS. -/
theorem test_cls :
    let t := after { (at200 0x00E0).setReg 15 1 with fb := (0 : Framebuffer).flip 31 63 }
    t.fb = 0 ∧ t.reg 15 = 1 ∧ t.pc = 0x202 ∧ t.out = [.clear] := by decide +kernel

/-- F5: RET goes on after the CALL, and the entry keeps its contents. -/
theorem test_ret :
    let t := after { at200 0x00EE with sp := 1, stack := (Vector.replicate 16 0).set 0 0x208 }
    t.pc = 0x20A ∧ t.sp = 0 ∧ t.stack[0] = 0x208 := by decide +kernel

/-- F7: RET with an empty stack. -/
theorem test_ret_underflow :
    let t := after (at200 0x00EE)
    t.halted = true ∧ t.pc = 0x200 ∧ t.out = [.report (.stackUnderflow 0)] := by decide +kernel

/-- F1: JMP. -/
theorem test_jmp : (after (at200 0x1ABC)).pc = 0xABC := by decide +kernel

/-- F4 (at 0x200): CALL pushes its own address. -/
theorem test_call :
    let t := after (at200 0x220C)
    t.pc = 0x20C ∧ t.sp = 1 ∧ t.stack[0] = 0x200 := by decide +kernel

/-- F6: CALL with a full stack. -/
theorem test_call_overflow :
    let t := after { at200 0x2300 with sp := 16 }
    t.halted = true ∧ t.pc = 0x200 ∧ t.sp = 16 ∧ t.out = [.report (.stackOverflow 16)] := by decide +kernel

/-- F9: JMP V0 reaches the largest PC. -/
theorem test_jmpV0 : (after (moved 0xBFFF 0xFF 0 0)).pc = 0x10FE := by decide +kernel

/-- K1, K2: SE Vx, kk. -/
theorem test_seImm :
    (after ((at200 0x332A).setReg 3 0x2A)).pc = 0x204 ∧ (after ((at200 0x332A).setReg 3 0x2B)).pc = 0x202 := by
  decide +kernel

/-- K3, K4: SNE Vx, kk. -/
theorem test_sneImm :
    (after ((at200 0x432A).setReg 3 0x2A)).pc = 0x202 ∧ (after (at200 0x432A)).pc = 0x204 := by decide +kernel

/-- K5, K6: SE Vx, Vy. -/
theorem test_seReg : (after (alu 0x5120 7 7)).pc = 0x204 ∧ (after (alu 0x5120 7 8)).pc = 0x202 := by decide +kernel

/-- K8, K9: SNE Vx, Vy. -/
theorem test_sneReg : (after (alu 0x9120 7 8)).pc = 0x204 ∧ (after (alu 0x9120 7 7)).pc = 0x202 := by decide +kernel

/-- M1: LD Vx, kk with x = F. -/
theorem test_ldImm : (after (at200 0x6FAB)).reg 15 = 0xAB := by decide +kernel

/-- M2: ADD Vx, kk wraps and writes no flag. -/
theorem test_addImm :
    let t := after (moved 0x7001 0xFF 0 0)
    t.reg 0 = 0 ∧ t.reg 15 = 0 := by decide +kernel

/-- M3: ADD VF, kk is a plain sum. -/
theorem test_addImm_vf : (after ((at200 0x7F02).setReg 15 0xFF)).reg 15 = 1 := by decide +kernel

/-- M4: LD I. -/
theorem test_ldI : (after (at200 0xAFFF)).i = 0x0FFF := by decide +kernel

/-- M5: RND with the random byte 0xB7. -/
theorem test_rnd : (after (at200 0xC40F)).reg 4 = 0x07 := by decide +kernel

/-- A1: LD Vx, Vy. -/
theorem test_ldReg : (after (alu 0x8120 0x01 0x5A)).reg 1 = 0x5A := by decide +kernel

/-- A2: OR leaves VF alone. -/
theorem test_orReg :
    let t := after ((alu 0x8121 0xF0 0x0F).setReg 15 1)
    t.reg 1 = 0xFF ∧ t.reg 15 = 1 := by decide +kernel

/-- A3: AND. -/
theorem test_andReg : (after (alu 0x8122 0xF3 0x3F)).reg 1 = 0x33 := by decide +kernel

/-- A4, A5: XOR. -/
theorem test_xorReg :
    (after (alu 0x8123 0xFF 0x0F)).reg 1 = 0xF0 ∧ (after (alu 0x8113 0x77 0)).reg 1 = 0 := by decide +kernel

/-- A6: ADD with a carry. -/
theorem test_addReg :
    let t := after (alu 0x8124 0xFF 0x01)
    t.reg 1 = 0 ∧ t.reg 15 = 1 := by decide +kernel

/-- A9, A11: VF as destination (the flag wins) and as source (its old value). -/
theorem test_addReg_vf :
    (after ((alu 0x8F14 0x20 0).setReg 15 0xF0)).reg 15 = 1 ∧
    (after ((alu 0x81F4 0xFF 0).setReg 15 1)).reg 1 = 0 := by decide +kernel

/-- A12: SUB of equal operands. -/
theorem test_subReg_equal :
    let t := after ((alu 0x8125 7 7).setReg 15 1)
    t.reg 1 = 0 ∧ t.reg 15 = 0 := by decide +kernel

/-- A14: SUB with a borrow. -/
theorem test_subReg :
    let t := after (alu 0x8125 3 5)
    t.reg 1 = 0xFE ∧ t.reg 15 = 0 := by decide +kernel

/-- A19: SHR uses Vx alone. -/
theorem test_shr :
    let t := after (alu 0x8126 0x03 0xFF)
    t.reg 1 = 1 ∧ t.reg 15 = 1 ∧ t.reg 2 = 0xFF := by decide +kernel

/-- A22: SHR VF, the flag wins. -/
theorem test_shr_vf : (after ((at200 0x8F06).setReg 15 2)).reg 15 = 0 := by decide +kernel

/-- A17: SUBN subtracts Vx from Vy. -/
theorem test_subnReg :
    let t := after (alu 0x8127 3 5)
    t.reg 1 = 2 ∧ t.reg 15 = 1 := by decide +kernel

/-- A16: SUBN of equal operands. -/
theorem test_subnReg_equal :
    let t := after ((alu 0x8127 9 9).setReg 15 1)
    t.reg 1 = 0 ∧ t.reg 15 = 0 := by decide +kernel

/-- A23: SHL uses Vx alone. -/
theorem test_shl :
    let t := after (alu 0x812E 0x81 0x55)
    t.reg 1 = 2 ∧ t.reg 15 = 1 := by decide +kernel

/-- A26: SHL VF, the flag wins. -/
theorem test_shl_vf : (after ((at200 0x8F0E).setReg 15 0x7F)).reg 15 = 0 := by decide +kernel

/-- G2: DRW across the corner. -/
theorem test_drw_wraps :
    let t := after ((moved 0xD011 60 31 0x20A).store 0x20A [0xFF])
    t.reg 15 = 0 ∧ litOf t.fb [(31, 60), (31, 61), (31, 62), (31, 63), (31, 0), (31, 1), (31, 2), (31, 3)] = true ∧
    t.fb.pixel 31 4 = false ∧ t.fb.pixel 0 0 = false ∧ t.out = [.update t.fb] ∧ t.draw = false := by decide +kernel

/-- G8: DRW VF, V0 takes the column before VF is cleared. -/
theorem test_drw_vf_column :
    let t := after (((moved 0xDF01 0 0 0x20A).store 0x20A [0x80]).setReg 15 5)
    t.fb = (0 : Framebuffer).flip 0 5 ∧ t.reg 15 = 0 := by decide +kernel

/-- Y1: SKP, with the keys as latched. -/
theorem test_skp : (after { (at200 0xE29E).setReg 2 0xA with keys := 0x0400 }).pc = 0x204 := by decide +kernel

/-- Y5: SKP with a key number above 15. -/
theorem test_skp_index :
    (after { (at200 0xE29E).setReg 2 0x10 with keys := 0xFFFF }).out = [.report (.keyIndexError 0x200 0x10)] := by
  decide +kernel

/-- Y3, Y4: SKNP. -/
theorem test_sknp :
    (after { (at200 0xE2A1).setReg 2 0xA with keys := 0x0400 }).pc = 0x202 ∧
    (after ((at200 0xE2A1).setReg 2 0xA)).pc = 0x204 := by decide +kernel

/-- Y7: LD Vx, K, entry cycle. -/
theorem test_ldVxK :
    let t := after { at200 0xF30A with dt := 5 }
    t.waiting = true ∧ t.waitX = 3 ∧ t.pc = 0x200 ∧ t.dt = 4 ∧ t.keys = 0x0800 := by decide +kernel

/-- Y9: the wait cycle with the event 0xB. -/
theorem test_wait_event :
    let t := after { base with waiting := true, waitX := 3, dt := 4, inputs := [⟨0x0800, some 0xB, 0⟩] }
    t.reg 3 = 0x0B ∧ t.pc = 0x202 ∧ t.waiting = false ∧ t.dt = 4 ∧ t.keys = 0x0800 := by decide +kernel

/-- T1: LD Vx, DT reads before the timer phase. -/
theorem test_ldVxDt :
    let t := after { at200 0xF107 with dt := 2 }
    t.reg 1 = 2 ∧ t.dt = 1 := by decide +kernel

/-- T3: LD DT, Vx and the same cycle's count. -/
theorem test_ldDtVx : (after (moved 0xF015 3 0 0)).dt = 2 := by decide +kernel

/-- T5, T6: LD ST, Vx: a beep for the count from 1 to 0, none for a load of 0. -/
theorem test_ldStVx :
    (after (alu 0xF218 0 1)).out = [.beep] ∧ (after (alu 0xF218 0 1)).st = 0 ∧
    (after { alu 0xF218 0 0 with st := 5 }).out = [] := by decide +kernel

/-- T10: ADD I, Vx wraps at 16 bits and writes no flag. -/
theorem test_addIVx :
    let t := after (moved 0xF11E 0 0xFF 0xFFFF)
    t.i = 0x00FE ∧ t.reg 15 = 0 := by decide +kernel

/-- T11, T12: LD F, Vx does not mask. -/
theorem test_ldFVx :
    (after (moved 0xF029 0x0A 0 0)).i = 0x0032 ∧ (after (moved 0xF029 0xFF 0 0)).i = 0x04FB := by decide +kernel

/-- T13: LD B, Vx. -/
theorem test_ldBVx :
    let t := after (((at200 0xF333).setReg 3 156).setI 0x300)
    t.mem.readRun 0x300 3 = [1, 5, 6] ∧ t.i = 0x300 := by decide +kernel

/-- T15: LD B, Vx over the end of memory. -/
theorem test_ldBVx_end :
    let t := after (((at200 0xF333).setReg 3 0).setI 0xFFE)
    t.mem = (at200 0xF333).mem ∧ t.out = [.report (.addressError 0x200 0x1000)] := by decide +kernel

/-- T19: LD [I], Vx into the font. -/
theorem test_storeRegs :
    let t := after (moved 0xF155 0xAA 0xBB 0)
    t.mem.readRun 0 3 = [0xAA, 0xBB, 0x90] ∧ t.i = 0 := by decide +kernel

/-- T21: LD VF, [I] from the font. -/
theorem test_loadRegs :
    (after (at200 0xFF65)).v.toList =
      [0xF0, 0x90, 0x90, 0x90, 0xF0, 0x20, 0x60, 0x20, 0x20, 0x70, 0xF0, 0x10, 0xF0, 0x80, 0xF0, 0xF0] := by
  decide +kernel

/-- T22: LD Vx, [I] above memory. -/
theorem test_loadRegs_end :
    (after ((at200 0xF065).setI 0x1000)).out = [.report (.addressError 0x200 0x1000)] := by decide +kernel

/-- S10: an unrecognized word. -/
theorem test_unrecognized :
    let t := after (at200 0xFFFF)
    t.out = [.report (.decodeError 0x200 0xFFFF)] ∧ t.pc = 0x200 ∧ t.halted = true := by decide +kernel

/-- Z6, E12: the fetch above 0xFFE. -/
theorem test_fetch_end :
    (after { base with pc := 0xFFF, sp := 16 }).out = [.report (.addressError 0xFFF 0x1000)] ∧
    (after { base with pc := 0x1000 }).out = [.report (.addressError 0x1000 0x1000)] := by decide +kernel

/-- The program of P1 after a load, one cycle. -/
theorem test_load_and_run :
    let t := after { load [0x00, 0xE0, 0x60, 0x05, 0x70, 0x03, 0x12, 0x00] (State.resetWith 0) with
      inputs := [⟨0, none, 0⟩] }
    t.pc = 0x202 ∧ t.out = [.clear] := by decide +kernel

/-- What `withFetchWord` stores is what the next step runs. -/
theorem test_withFetchWord : (after (base.withFetchWord 16 0x6FAB)).reg 15 = 0xAB := by decide +kernel

/-! ## Witnesses: for each statement with hypotheses, states and operands that meet them, at the ends of their ranges -/

/-- The execute phase's next state, which it always has. -/
def executed (i : Instr) (s : State) : State := ranTo (exec i s) s

/-- A state that waits for register 15 at the highest PC a LD Vx, K can have, with a given schedule. -/
def waitingWith (inputs : List CycleInput) : State :=
  { base with waiting := true, waitX := 15, pc := 0xFFE, inputs := inputs }

/-- A state whose stack is full, at the highest PC that fetches, with a word there. -/
def fullStack (w : Word) : State :=
  ({ base with sp := 16, pc := 0xFFE, stack := Vector.replicate 16 0xFFE }).store 0xFFE [highByte w, lowByte w]

theorem witness_EncodeOfDecodeRestoresWord :
    decodeWord 0x8FF6 = .ok (.shr 15) ∧ decodeWord 0x8F5E = .ok (.shl 15) ∧ decodeWord 0xDFFF = .ok (.drw 15 15 15) := by
  decide

theorem witness_OpcodeRowsAreDisjoint :
    ∃ r ∈ opcodeTable, r.mnemonic = "DRW_Vx__Vy__n" ∧ r.selects 0xDFFF = true := by decide +kernel

theorem witness_DecoderFollowsOpcodeTable :
    (∃ r ∈ opcodeTable, r.selects 0xFF65 = true) ∧ wellFormedWord 0xFF66 = false := by decide +kernel

theorem witness_StepRunsTheDecodedInstruction :
    ((fullStack 0x6011).Fetches ∧
      decodeWord (wordOf ((fullStack 0x6011).mem.read 0xFFE) ((fullStack 0x6011).mem.read 0xFFF)) = .ok (.ldImm 0 0x11) ∧
      (executed (.ldImm 0 0x11) (fullStack 0x6011)).halted = false) ∧
    ((fullStack 0x2FFF).Fetches ∧
      decodeWord (wordOf ((fullStack 0x2FFF).mem.read 0xFFE) ((fullStack 0x2FFF).mem.read 0xFFF)) = .ok (.call 0xFFF) ∧
      (executed (.call 0xFFF) (fullStack 0x2FFF)).halted = true) := by decide +kernel

theorem witness_HaltedCycleDoesNothing : (base.halt (.loadError 3585)).halted = true := rfl

theorem witness_WaitCycleOnlyTakesTheKey :
    ((waitingWith []).halted = false ∧ (waitingWith []).waiting = true) ∧
    (waitingWith [⟨0xFFFF, none, 0⟩]).input.keyEvent = none ∧
    (waitingWith [⟨0, some 15, 0⟩]).input.keyEvent = some 15 := by decide +kernel

theorem witness_AwaitKeyLastsUntilTheEvent :
    ∃ (idle : List CycleInput) (last : CycleInput), idle.length = 2 ∧ (∀ c ∈ idle, c.keyEvent = none) ∧
      last.keyEvent = some 0 ∧ (waitingWith (idle ++ [last])).inputs = idle ++ last :: [] ∧
      (waitingWith (idle ++ [last])).waiting = true ∧ (waitingWith (idle ++ [last])).halted = false :=
  ⟨[⟨1, none, 0⟩, ⟨0, none, 0⟩], ⟨0, some 0, 0⟩, by decide +kernel⟩

theorem witness_FetchAboveMemoryRaisesAddressError :
    ∀ s ∈ [{ base with pc := 0xFFF }, { base with pc := 0x1000 }, { base with pc := 0x10FE }],
      s.halted = false ∧ s.waiting = false ∧ s.pc.toNat > 0xFFE := by decide +kernel

theorem witness_UnrecognizedWordRaisesDecodeError :
    ((fullStack 0x0000).Fetches ∧ ∀ i, decodeWord (fullStack 0x0000).fetchWord ≠ .ok i) ∧
    ((fullStack 0xFFFF).Fetches ∧ (fullStack 0xFFFF).mem.read (fullStack 0xFFFF).pc.toNat = 0xFF ∧
      (fullStack 0xFFFF).mem.read ((fullStack 0xFFFF).pc.toNat + 1) = 0xFF) := by
  refine ⟨⟨by decide +kernel, ?_⟩, by decide +kernel⟩
  have h : decodeWord (fullStack 0x0000).fetchWord = .error (.unrecognized 0) := by decide +kernel
  intro i hi
  rw [h] at hi
  cases hi

/-- A normal cycle, from an instruction whose execute phase evaluates. -/
theorem normalCycle_of {s : State} {i : Instr}
    (h : s.Fetches ∧ decodeWord s.fetchWord = .ok i ∧ (nextOf (exec i s.begin)).isSome = true ∧
      (executed i s.begin).halted = false) : NormalCycle s i (executed i s.begin) :=
  ⟨h.1, h.2.1, eq_next_ranTo _ h.2.2.1, h.2.2.2⟩

/-- LD ST, V2 with V2 = 1 and DT = 0: ST stands at 1 before its count, DT at 0. -/
theorem witness_TimersCountDownOncePerNormalCycle :
    NormalCycle (alu 0xF218 0 1) (.ldStVx 2) (executed (.ldStVx 2) (alu 0xF218 0 1).begin) ∧
    (executed (.ldStVx 2) (alu 0xF218 0 1).begin).st = 1 ∧ (executed (.ldStVx 2) (alu 0xF218 0 1).begin).dt = 0 ∧
    (∀ s ∈ [base.halt (.loadError 3585), waitingWith [⟨0, none, 0⟩], at200 0xFFFF], (nextOf (step s)).isSome = true) ∧
    (after (at200 0xFFFF)).halted = true :=
  ⟨normalCycle_of (by decide +kernel), by decide +kernel⟩

/-- ST at 0, at 1 and at 2 before the count. -/
theorem witness_BeepExactlyWhenSoundTimerReachesZero :
    (NormalCycle (alu 0xF218 0 0) (.ldStVx 2) (executed (.ldStVx 2) (alu 0xF218 0 0).begin) ∧
      (executed (.ldStVx 2) (alu 0xF218 0 0).begin).st = 0) ∧
    (NormalCycle (alu 0xF218 0 1) (.ldStVx 2) (executed (.ldStVx 2) (alu 0xF218 0 1).begin) ∧
      (executed (.ldStVx 2) (alu 0xF218 0 1).begin).st = 1) ∧
    (NormalCycle (alu 0xF218 0 2) (.ldStVx 2) (executed (.ldStVx 2) (alu 0xF218 0 2).begin) ∧
      (executed (.ldStVx 2) (alu 0xF218 0 2).begin).st = 2) ∧
    (nextOf (step (waitingWith [⟨0, none, 0⟩]))).isSome = true :=
  ⟨⟨normalCycle_of (by decide +kernel), by decide +kernel⟩, ⟨normalCycle_of (by decide +kernel), by decide +kernel⟩,
    ⟨normalCycle_of (by decide +kernel), by decide +kernel⟩, by decide +kernel⟩

/-- A DRW of no byte, a CLS and an instruction that is neither. -/
theorem witness_DisplayUpdateExactlyAfterDrw :
    NormalCycle (moved 0xD010 60 31 0xFFFF) (.drw 0 1 0) (executed (.drw 0 1 0) (moved 0xD010 60 31 0xFFFF).begin) ∧
    NormalCycle (at200 0x00E0) .cls (executed .cls (at200 0x00E0).begin) ∧
    NormalCycle (at200 0x6FAB) (.ldImm 15 0xAB) (executed (.ldImm 15 0xAB) (at200 0x6FAB).begin) ∧
    (moved 0xD010 60 31 0xFFFF).draw = false ∧ (at200 0x00E0).draw = false ∧ (at200 0x6FAB).draw = false :=
  ⟨normalCycle_of (by decide +kernel), normalCycle_of (by decide +kernel), normalCycle_of (by decide +kernel), rfl, rfl, rfl⟩

/-- CLS, and DRW, with ST at 1: the beep comes after the clear and before the update. -/
theorem witness_OutputsComeInOrder :
    NormalCycle { at200 0x00E0 with st := 1 } .cls (executed .cls { at200 0x00E0 with st := 1 }.begin) ∧
    NormalCycle { at200 0xD011 with st := 1 } (.drw 0 1 1) (executed (.drw 0 1 1) { at200 0xD011 with st := 1 }.begin) ∧
    (at200 0x00E0).draw = false ∧ (at200 0xD011).draw = false :=
  ⟨normalCycle_of (by decide +kernel), normalCycle_of (by decide +kernel), rfl, rfl⟩

/-- A normal cycle, a wait cycle, a halted cycle and one that ends in an error. -/
theorem witness_KeysAreRefreshedOncePerCycle :
    (∀ s ∈ [at200 0x6FAB, waitingWith [⟨3, none, 0⟩]],
      (nextOf (step s)).isSome = true ∧ s.halted = false ∧ (after s).halted = false) ∧
    (∀ s ∈ [base.halt (.loadError 3585), at200 0xFFFF], (nextOf (step s)).isSome = true ∧ (after s).halted = true) := by
  decide +kernel

/-- One cycle for each fatal error that a cycle can raise, with the values at the ends of their ranges. -/
theorem witness_FatalErrorsArePrecise_and_ErrorsComeOnlyFromTheirCauses :
    ∀ p ∈ [(fullStack 0xFFFF, FatalError.decodeError 0xFFE 0xFFFF), (fullStack 0x2FFF, .stackOverflow 16),
        (at200 0x00EE, .stackUnderflow 0), ({ base with pc := 0xFFF }, .addressError 0xFFF 0x1000),
        ((at200 0xF333).setI 0xFFE, .addressError 0x200 0x1000), ((at200 0xD001).setI 0xFFFF, .addressError 0x200 0xFFFF),
        ((at200 0xE29E).setReg 2 0x10, .keyIndexError 0x200 0x10), ((at200 0xE2A1).setReg 2 0xFF, .keyIndexError 0x200 0xFF)],
      p.1.halted = false ∧ (nextOf (step p.1)).isSome = true ∧ (after p.1).halted = true ∧ (after p.1).err = some p.2 := by
  decide +kernel

/-- The invariant in a state with a full stack, its entries at their highest, and at the highest PC. -/
theorem witness_EveryStepKeepsTheInvariant :
    ({ fullStack 0x2FFF with pc := 0x10FE }).Inv ∧ (fullStack 0x2FFF).Inv ∧ (waitingWith []).Inv ∧
    (nextOf (step (fullStack 0x2FFF))).isSome = true := by
  refine ⟨⟨?_, ?_, ?_, ?_⟩, ⟨?_, ?_, ?_, ?_⟩, ⟨?_, ?_, ?_, ?_⟩, ?_⟩ <;> decide +kernel

theorem witness_LoadPlacesTheProgramVerbatim :
    (List.replicate 3584 (0xAA : Byte)).length ≤ 3584 ∧ ([] : List Byte).length ≤ 3584 := by
  rw [List.length_replicate]
  decide

theorem witness_OverlongProgramRaisesLoadError :
    (List.replicate 3585 (0xAA : Byte)).length > 3584 ∧ (List.replicate 3584 (0xAA : Byte)).length = 3584 ∧
    ([] : List Byte).length = 0 := by
  rw [List.length_replicate, List.length_replicate]
  decide

theorem witness_ResetPcIsTheFirstLoadedWord :
    (List.replicate 3582 (0xAA : Byte)).length + 2 ≤ 3584 ∧ ([] : List Byte).length + 2 ≤ 3584 := by
  rw [List.length_replicate]
  decide

theorem witness_OnlyDestinationRegistersChange :
    ((nextOf (exec (.loadRegs 14) base)).isSome = true ∧ (15 : Reg) ∉ destinations (.loadRegs 14)) ∧
    ((nextOf (exec (.addReg 15 2) base)).isSome = true ∧ (14 : Reg) ∉ destinations (.addReg 15 2)) := by decide +kernel

/-- Each instruction with a flag, VF among its destinations, the flag 1; and one without. -/
theorem witness_VfIsTheFlagOutput :
    (∀ i ∈ [Instr.addReg 15 15, .subReg 15 2, .shr 15, .shl 15],
      (nextOf (exec i (base.setReg 15 0x81))).isSome = true ∧ (executed i (base.setReg 15 0x81)).halted = false ∧
      flagOf i (base.setReg 15 0x81) = some true) ∧
    flagOf (.subnReg 15 2) (base.setReg 2 1) = some true ∧
    flagOf (.drw 0 0 1) { base with fb := (0 : Framebuffer).flip 0 0 } = some true ∧
    ((executed (.xorReg 14 15) base).halted = false ∧ flagOf (.xorReg 14 15) base = none ∧
      xField (.xorReg 14 15) ≠ some vf) ∧
    (let s := { waitingWith [⟨0, some 15, 0⟩] with waitX := 14 }
     s.waiting = true ∧ s.waitX ≠ vf ∧ (nextOf (step s)).isSome = true) := by decide +kernel

theorem witness_FramebufferAndIndexHaveFewWriters :
    (executed .cls { base with fb := (0 : Framebuffer).flip 31 63 }).fb ≠ (0 : Framebuffer).flip 31 63 ∧
    (executed (.drw 0 0 1) base).fb ≠ base.fb ∧ (executed (.ldI 0xFFF) base).i ≠ base.i ∧
    (executed (.addIVx 1) (base.setReg 1 1)).i ≠ base.i ∧ (executed (.ldFVx 1) (base.setReg 1 0xFF)).i ≠ base.i := by
  decide +kernel

/-- The last byte each of the two can store to. -/
theorem witness_OnlyLdBAndStoreChangeMemory :
    (executed (.ldBVx 1) ((base.setReg 1 0xFF).setI 0xFFD)).mem.read 0xFFF ≠ base.mem.read 0xFFF ∧
    (executed (.storeRegs 15) ((base.setReg 15 1).setI 0xFF0)).mem.read 0xFFF ≠ base.mem.read 0xFFF := by decide +kernel

theorem witness_OnlyCallAndRetChangeTheStack :
    (executed (.call 0x300) { base with sp := 15 }).sp ≠ 15 ∧ (executed .ret { base with sp := 1 }).sp ≠ 1 ∧
    (executed (.call 0x300) { base with sp := 15 }).stack[15] ≠ base.stack[15] := by decide +kernel

theorem witness_TimersKeysAndHiddenBitsHaveOneWriter :
    (executed (.ldDtVx 1) (base.setReg 1 0xFF)).dt ≠ base.dt ∧ (executed (.ldStVx 1) (base.setReg 1 1)).st ≠ base.st ∧
    (executed (.ldVxK 15) base).waiting ≠ base.waiting ∧ (executed (.ldVxK 15) base).waitX ≠ base.waitX ∧
    (executed (.drw 0 0 0) base).draw ≠ base.draw := by decide +kernel

theorem witness_CallPushesItsOwnAddress :
    ({ base with sp := 15 }).sp.val < 16 ∧ base.sp.val < 16 ∧ (fullStack 0x2FFF).sp.val = 16 := by decide +kernel

theorem witness_RetPopsTheCallAddressPlusTwo :
    ((fullStack 0x00EE).sp.val = (15 : Fin 16).val + 1 ∧ (fullStack 0x00EE).StackInv) ∧
    ({ base with sp := 1 }).sp.val = (0 : Fin 16).val + 1 ∧ base.sp.val = 0 := by decide +kernel

/-- A RET in a state that agrees with the one after the CALL in the stack alone. -/
theorem witness_RetAfterCallResumesAfterTheCall :
    ∃ s u w : State, s.sp.val = 15 ∧ exec (.call 0x300) s = .next u ∧ w.sp = u.sp ∧ w.stack = u.stack ∧ w ≠ u :=
  ⟨{ base with sp := 15 }, executed (.call 0x300) { base with sp := 15 },
    { executed (.call 0x300) { base with sp := 15 } with dt := 9 }, rfl, eq_next_ranTo _ (by decide +kernel), rfl, rfl,
    by decide +kernel⟩

/-- Each of the four, and a register that is not the destination, which the register statements of the immediate and
the ALU group speak of as well. -/
theorem witness_LogicAndCopyLeaveVfAlone :
    ∀ p ∈ [(Instr.ldReg 15 2, (0x5A : Byte)), (.orReg 15 2, 0xFB), (.andReg 15 2, 0x52), (.xorReg 15 2, 0xA9)],
      let s := (base.setReg 15 0xF3).setReg 2 0x5A
      ((p.1 = .ldReg 15 2 ∧ p.2 = s.reg 2) ∨ (p.1 = .orReg 15 2 ∧ p.2 = s.reg 15 ||| s.reg 2) ∨
        (p.1 = .andReg 15 2 ∧ p.2 = s.reg 15 &&& s.reg 2) ∨ (p.1 = .xorReg 15 2 ∧ p.2 = s.reg 15 ^^^ s.reg 2)) ∧
      (2 : Reg) ≠ 15 := by decide +kernel

/-- A destination that is not VF, and a third register: for ADD, SUB, SUBN, SHR and SHL, and, without the clause on
VF, for LD Vx, kk, ADD Vx, kk, RND and LD Vx, DT. -/
theorem witness_registers_other_than_the_destination :
    (1 : Reg) ≠ vf ∧ (0 : Reg) ≠ 1 ∧ (0 : Reg) ≠ vf ∧ (14 : Reg) ≠ 15 := by decide +kernel

/-- No sprite byte with I at its highest, and a sprite that ends at 4095; a pixel turned off, and none. -/
theorem witness_DrwInvertsExactlyTheSpritePixels :
    ((0 : Nibble).toNat = 0 ∧ (base.setI 0xFFFF).i = 0xFFFF) ∧
    (base.setI 0xFF1).i.toNat + (15 : Nibble).toNat - 1 ≤ 4095 ∧
    (let s := { base with fb := (0 : Framebuffer).flip 0 0 }
     s.fb.pixel 0 0 = true ∧ (executed (.drw 0 0 1) s).fb.pixel 0 0 = false) ∧
    (∀ row < 32, ∀ col < 64, base.fb.pixel row col = true → (executed (.drw 0 0 1) base).fb.pixel row col = true) := by
  refine ⟨by decide +kernel, by decide +kernel, by decide +kernel, ?_⟩
  intro row _ col _ h
  simp [base, State.resetWith, Framebuffer.pixel] at h

/-- The second draw starts from another PC and another VF. -/
theorem witness_DrawingTwiceRestoresTheFramebuffer :
    ∃ s u w : State, s.i.toNat + (1 : Nibble).toNat - 1 ≤ 4095 ∧ exec (.drw 0 1 1) s = .next u ∧ w.fb = u.fb ∧
      w.mem = s.mem ∧ w.i = s.i ∧ w.reg 0 = s.reg 0 ∧ w.reg 1 = s.reg 1 ∧ w ≠ u :=
  ⟨base, executed (.drw 0 1 1) base, { executed (.drw 0 1 1) base with pc := 0x300 },
    by decide +kernel, eq_next_ranTo _ (by decide +kernel), rfl, by decide +kernel, by decide +kernel, by decide +kernel,
    by decide +kernel, by decide +kernel⟩

theorem witness_KeySkipsReadTheLatch :
    ((base.setReg 2 15).reg 2).toNat ≤ 15 ∧ ((base.setReg 2 16).reg 2).toNat > 15 := by decide +kernel

theorem witness_LdVxKStartsTheWait :
    (fullStack 0xFF0A).Fetches ∧ decodeWord (fullStack 0xFF0A).fetchWord = .ok (.ldVxK 15) := by decide +kernel

theorem witness_LdBStoresThreeDigits :
    (base.setI 0xFFD).i.toNat + 2 ≤ 4095 ∧ (base.setI 0).i.toNat + 2 ≤ 4095 := by decide +kernel

theorem witness_BlockStoreAndBlockLoad :
    (base.setI 0xFF0).i.toNat + (15 : Reg).val ≤ 4095 ∧ (base.setI 0xFFF).i.toNat + (0 : Reg).val ≤ 4095 ∧
    (0 : Reg).val < (15 : Reg).val := by decide +kernel

theorem witness_BlockLoadAfterBlockStoreRestores :
    ∃ s u w : State, s.i.toNat + (15 : Reg).val ≤ 4095 ∧ exec (.storeRegs 15) s = .next u ∧ w.mem = u.mem ∧ w.i = s.i ∧
      w ≠ u :=
  ⟨base.setI 0xFF0, executed (.storeRegs 15) (base.setI 0xFF0),
    { executed (.storeRegs 15) (base.setI 0xFF0) with v := Vector.replicate 16 7 },
    by decide +kernel, eq_next_ranTo _ (by decide +kernel), rfl, by decide +kernel, by decide +kernel⟩

/-- Each of the four, at the lowest I that raises and at the highest I there is. -/
theorem witness_RangeAboveMemoryRaisesAddressError :
    (∀ s ∈ [base.setI 0xFF2, base.setI 0xFFFF], (15 : Nibble).toNat > 0 ∧ s.i.toNat + (15 : Nibble).toNat - 1 > 4095) ∧
    (∀ s ∈ [base.setI 0xFFE, base.setI 0xFFFF], s.i.toNat + 2 > 4095) ∧
    (∀ s ∈ [base.setI 0xFF1, base.setI 0xFFFF], s.i.toNat + (15 : Reg).val > 4095) ∧
    (base.setI 0x1000).i.toNat + (0 : Reg).val > 4095 := by decide +kernel

/-- For each of the two at the highest PC and range: both bytes of the next word covered, the second alone (x = 0 among
them), the first alone, and none. -/
theorem witness_StoredBytesAreSeenByTheNextFetch :
    (∀ s ∈ [{ base with pc := 0xFFC, i := 0xFFD }, { base with pc := 0xFFA, i := 0xFFD },
        { base with pc := 0xFFC, i := 0xFFC }, { base with pc := 0xFFC, i := 0 }],
      s.pc.toNat ≤ 0xFFC ∧ s.i.toNat + 2 ≤ 4095) ∧
    (∀ s ∈ [{ base with pc := 0xFFC, i := 0xFFF }, { base with pc := 0xFFC, i := 0xFFE }, { base with pc := 0, i := 0 }],
      s.pc.toNat ≤ 0xFFC ∧ s.i.toNat + (0 : Reg).val ≤ 4095) ∧
    (∀ s ∈ [{ base with pc := 0xFFC, i := 0xFF0 }, { base with pc := 0xFEC, i := 0xFF0 }],
      s.pc.toNat ≤ 0xFFC ∧ s.i.toNat + (15 : Reg).val ≤ 4095) := by decide +kernel

/-- P7 and T13 by hand: a word of which LD B overwrites the first byte alone, and one of which LD [I] with x = 0
overwrites the second alone. -/
theorem test_store_into_the_next_word :
    (after ((((at200 0xF333).store 0x202 [0x12, 0x34]).setReg 3 156).setI 0x200)).fetchWord = 0x0634 ∧
    (after (((at200 0xF055).store 0x202 [0x12, 0x34]).setReg 0 0x08 |>.setI 0x203)).fetchWord = 0x1208 := by
  decide +kernel

end Sys2Proof.Tests
end

section
/-! The state after reset and load (spec/10_state.md R31, 70_reset_and_hazards.md R231). -/

namespace Sys2Proof.Machine

/-- A program that fits is stored at PROG_BASE, with no error (R231). -/
theorem load_of_length_le {p : List Byte} (s : State) (h : p.length ≤ 3584) :
    load p s = s.store Config.progBase p := by
  simp [load, wellFormedProgram, h]

@[simp] theorem State.resetWith_pc_toNat (keys0 : BitVec 16) : (State.resetWith keys0).pc.toNat = 512 := rfl

/-- The word fetched at the base of a stored run of two bytes or more is the run's first two bytes (R47). -/
theorem State.fetchWord_store_at_pc (s : State) (b₀ b₁ : Byte) (rest : List Byte) :
    (s.store s.pc.toNat (b₀ :: b₁ :: rest)).fetchWord = wordOf b₀ b₁ := by
  simp [State.fetchWord, Memory.read_writeRun]

/-- Settles O27: a program that fits is stored from 0x200 up, which is where PC stands after reset, and the load leaves
PC there. -/
theorem resetPcIsTheFirstLoadedWord : Obligations.ResetPcIsTheFirstLoadedWord := by
  unfold Obligations.ResetPcIsTheFirstLoadedWord
  intro keys0 b₀ b₁ rest hfits
  have hload : load (b₀ :: b₁ :: rest) (State.resetWith keys0) =
      (State.resetWith keys0).store (State.resetWith keys0).pc.toNat (b₀ :: b₁ :: rest) :=
    load_of_length_le _ hfits
  refine ⟨State.resetWith_pc_toNat keys0, ?_, ?_⟩
  · rw [hload, State.store_pc, State.resetWith_pc_toNat]
  · rw [hload, State.fetchWord_store_at_pc]

end Sys2Proof.Machine
end

section
/-! The fields of a word (spec/30_encoding.md R61, R62): the number each slice reads, and a number put together from
its upper and its lower part. -/

namespace Sys2Proof

@[simp] theorem regOf_val (b : Nibble) : (regOf b).val = b.toNat := rfl

@[simp] theorem fieldsOf_c_toNat (w : Word) : (fieldsOf w).c.toNat = w.toNat / 4096 := by
  have hw : w.toNat < 65536 := w.isLt
  simp only [fieldsOf, BitVec.extractLsb'_toNat, Nat.shiftRight_eq_div_pow]
  omega

@[simp] theorem fieldsOf_x_val (w : Word) : (fieldsOf w).x.val = w.toNat / 256 % 16 := by
  simp [fieldsOf, Nat.shiftRight_eq_div_pow]

@[simp] theorem fieldsOf_y_val (w : Word) : (fieldsOf w).y.val = w.toNat / 16 % 16 := by
  simp [fieldsOf, Nat.shiftRight_eq_div_pow]

@[simp] theorem fieldsOf_n_toNat (w : Word) : (fieldsOf w).n.toNat = w.toNat % 16 := by
  simp [fieldsOf]

@[simp] theorem fieldsOf_kk_toNat (w : Word) : (fieldsOf w).kk.toNat = w.toNat % 256 := by
  simp [fieldsOf]

@[simp] theorem fieldsOf_nnn_toNat (w : Word) : (fieldsOf w).nnn.toNat = w.toNat % 4096 := by
  simp [fieldsOf]

/-- The two parts share no bit, so the or of R62 is their sum. -/
theorem eq_shiftLeft_or_of_div_mod {m hi lo : Nat} (k : Nat) (hhi : hi = m / 2 ^ k) (hlo : lo = m % 2 ^ k) :
    m = hi <<< k ||| lo := by
  have hlt : lo < 2 ^ k := hlo ▸ Nat.mod_lt m (Nat.two_pow_pos k)
  rw [← Nat.shiftLeft_add_eq_or_of_lt hlt, Nat.shiftLeft_eq, hhi, hlo, Nat.div_add_mod']

theorem eq_c_shiftLeft_or_nnn (w : Word) : w.toNat = (fieldsOf w).c.toNat <<< 12 ||| (fieldsOf w).nnn.toNat :=
  eq_shiftLeft_or_of_div_mod 12 (fieldsOf_c_toNat w) (fieldsOf_nnn_toNat w)

theorem nnn_eq_x_shiftLeft_or_kk (w : Word) :
    (fieldsOf w).nnn.toNat = (fieldsOf w).x.val <<< 8 ||| (fieldsOf w).kk.toNat := by
  apply eq_shiftLeft_or_of_div_mod 8
  · simp only [fieldsOf_x_val, fieldsOf_nnn_toNat]
    omega
  · simp only [fieldsOf_kk_toNat, fieldsOf_nnn_toNat]
    omega

theorem kk_eq_y_shiftLeft_or_n (w : Word) :
    (fieldsOf w).kk.toNat = (fieldsOf w).y.val <<< 4 ||| (fieldsOf w).n.toNat := by
  apply eq_shiftLeft_or_of_div_mod 4
  · simp only [fieldsOf_y_val, fieldsOf_kk_toNat]
    omega
  · simp only [fieldsOf_n_toNat, fieldsOf_kk_toNat]
    omega

/-- Settles O6: each field is a slice, so its number is a quotient and a remainder of the word's, and each longer field
splits at the bit where the next shorter one ends. -/
theorem fieldsAreSlicesThatReassemble : Obligations.FieldsAreSlicesThatReassemble := by
  unfold Obligations.FieldsAreSlicesThatReassemble
  intro w
  refine ⟨?slices, ?reassembly⟩
  case slices =>
    exact ⟨fieldsOf_c_toNat w, fieldsOf_x_val w, fieldsOf_y_val w, fieldsOf_n_toNat w, fieldsOf_kk_toNat w,
      fieldsOf_nnn_toNat w⟩
  case reassembly =>
    exact ⟨eq_c_shiftLeft_or_nnn w, nnn_eq_x_shiftLeft_or_kk w, kk_eq_y_shiftLeft_or_n w⟩

end Sys2Proof
end

section
/-! The jump (spec/41_control_flow.md R101). -/

namespace Sys2Proof.Machine

/-- A 12-bit address keeps its number in a 16-bit register (R63). -/
@[simp] theorem zext16_toNat (nnn : Imm12) : (zext16 nnn).toNat = nnn.toNat :=
  BitVec.toNat_setWidth_of_le (by decide)

theorem exec_jmp (nnn : Imm12) (s : State) : exec (.jmp nnn) s = .next (s.setPc (zext16 nnn)) := rfl

/-- Settles O36: the jump writes PC alone, and widening nnn to 16 bits keeps its number. -/
theorem jmpPutsNnnInPc : Obligations.JmpPutsNnnInPc := by
  unfold Obligations.JmpPutsNnnInPc
  intro nnn s
  have hpc : (s.setPc (zext16 nnn)).pc.toNat = nnn.toNat := by rw [State.setPc_pc, zext16_toNat]
  exact ⟨s.setPc (zext16 nnn), exec_jmp nnn s, rfl, hpc⟩

end Sys2Proof.Machine
end

section
/-! The conditional skips on registers (spec/42_skips.md R110 to R113). -/

namespace Sys2Proof.Machine

/-- A skip whose test decides the condition p writes PC alone: 4 further on when p holds, else 2 (R13). -/
theorem State.skipIf_eq_of_iff (s : State) {c : Bool} {p : Prop} [Decidable p] (hc : c = true ↔ p) :
    s.skipIf c = { s with pc := if p then s.pc + 4 else s.pc + 2 } := by
  have hpc : (s.pc + if c then 4 else 2) = if p then s.pc + 4 else s.pc + 2 := by
    simp only [hc, apply_ite (s.pc + ·)]
  exact congrArg s.setPc hpc

theorem exec_seImm (x : Reg) (kk : Byte) (s : State) :
    exec (.seImm x kk) s = .next (s.skipIf (s.reg x == kk)) := rfl

theorem exec_sneImm (x : Reg) (kk : Byte) (s : State) :
    exec (.sneImm x kk) s = .next (s.skipIf (s.reg x != kk)) := rfl

theorem exec_seReg (x y : Reg) (s : State) :
    exec (.seReg x y) s = .next (s.skipIf (s.reg x == s.reg y)) := rfl

theorem exec_sneReg (x y : Reg) (s : State) :
    exec (.sneReg x y) s = .next (s.skipIf (s.reg x != s.reg y)) := rfl

/-- Settles O41: each of the four is the shared skip, and its test is the (in)equality of the two bytes it compares. -/
theorem registerSkipsAdvanceByFourOrTwo : Obligations.RegisterSkipsAdvanceByFourOrTwo := by
  unfold Obligations.RegisterSkipsAdvanceByFourOrTwo
  intro x y kk s
  refine ⟨?seImm, ?sneImm, ?seReg, ?sneReg⟩
  case seImm => rw [exec_seImm, s.skipIf_eq_of_iff beq_iff_eq]
  case sneImm => rw [exec_sneImm, s.skipIf_eq_of_iff bne_iff_ne]
  case seReg => rw [exec_seReg, s.skipIf_eq_of_iff beq_iff_eq]
  case sneReg => rw [exec_sneReg, s.skipIf_eq_of_iff bne_iff_ne]

end Sys2Proof.Machine
end

section
/-! The immediate loads and LD F (spec/43_immediate.md R120 to R122, spec/47_timer_index_memory.md R174). -/

namespace Sys2Proof.Machine

/-- A byte written to V[x], then PC past the instruction: V[x] holds the byte, the other registers keep theirs, and
nothing else changed. -/
theorem State.setReg_advance_frame (s : State) (x : Reg) (b : Byte) :
    (s.setReg x b).advance = { s with v := (s.setReg x b).advance.v, pc := s.pc + 2 } ∧
      (s.setReg x b).advance.reg x = b ∧ ∀ r, r ≠ x → (s.setReg x b).advance.reg r = s.reg r := by
  refine ⟨rfl, ?same, ?other⟩
  case same => rw [State.reg_advance, State.reg_setReg_self]
  case other => exact fun r hr => by rw [State.reg_advance, State.reg_setReg_ne s x r b hr]

/-- A value written to I, then PC past the instruction: nothing else changed. -/
theorem State.setI_advance_frame (s : State) (w : Word) :
    (s.setI w).advance = { s with i := (s.setI w).advance.i, pc := s.pc + 2 } := rfl

/-- The last glyph address, 255 * 5, fits in 16 bits, so the product does not wrap. -/
@[simp] theorem glyphAddress_toNat (b : Byte) : (glyphAddress b).toNat = b.toNat * 5 :=
  have fits : b.toNat * 5 < 2 ^ 16 := by have := b.isLt; omega
  (BitVec.toNat_ofNat ..).trans (Nat.mod_eq_of_lt fits)

theorem exec_ldImm (x : Reg) (kk : Byte) (s : State) : exec (.ldImm x kk) s = .next (s.setReg x kk).advance := rfl

theorem exec_addImm (x : Reg) (kk : Byte) (s : State) :
    exec (.addImm x kk) s = .next (s.setReg x (s.reg x + kk)).advance := rfl

theorem exec_ldI (nnn : Imm12) (s : State) : exec (.ldI nnn) s = .next (s.setI (zext16 nnn)).advance := rfl

theorem exec_ldFVx (x : Reg) (s : State) : exec (.ldFVx x) s = .next (s.setI (glyphAddress (s.reg x))).advance := rfl

/-- Settles O42: both write one register and advance, and the sum of two bytes is their sum modulo 256. -/
theorem immediateLoadAndAdd : Obligations.ImmediateLoadAndAdd := by
  unfold Obligations.ImmediateLoadAndAdd
  intro x kk s
  refine ⟨⟨_, exec_ldImm x kk s, s.setReg_advance_frame x kk⟩, ⟨_, exec_addImm x kk s, ?add⟩⟩
  obtain ⟨frame, result, others⟩ := s.setReg_advance_frame x (s.reg x + kk)
  exact ⟨frame, by rw [result, BitVec.toNat_add], others⟩

/-- Settles O43: both write I and advance; neither nnn nor V[x] * 5 loses a bit in the 16-bit register. -/
theorem indexLoads : Obligations.IndexLoads := by
  unfold Obligations.IndexLoads
  intro nnn x s
  refine ⟨⟨_, exec_ldI nnn s, s.setI_advance_frame _, ?nnn⟩,
    ⟨_, exec_ldFVx x s, s.setI_advance_frame _, ?glyph⟩⟩
  case nnn => rw [State.advance_i, State.setI_i, zext16_toNat]
  case glyph => rw [State.advance_i, State.setI_i, glyphAddress_toNat]

end Sys2Proof.Machine
end

section
/-! The flag-setting group: ADD, SUB, SHR and SHL (spec/44_alu.md R135 to R137, R139). -/

namespace Sys2Proof.Machine

/-- A result written to V[x] and a flag to VF, then PC past the instruction: V[x] holds the result unless it is VF, VF
holds the flag (R130), the other registers keep theirs, and nothing else changed. -/
theorem State.setResultAndFlag_advance_frame (s : State) (x : Reg) (b : Byte) (f : Bool) :
    (s.setResultAndFlag x b f).advance =
        { s with v := (s.setResultAndFlag x b f).advance.v, pc := s.pc + 2 } ∧
      (x ≠ vf → (s.setResultAndFlag x b f).advance.reg x = b) ∧
      (s.setResultAndFlag x b f).advance.reg vf = flagByte f ∧
      ∀ r, r ≠ x → r ≠ vf → (s.setResultAndFlag x b f).advance.reg r = s.reg r := by
  refine ⟨rfl, ?result, ?flag, ?others⟩
  case result => exact fun hx => by rw [State.reg_advance, State.reg_setResultAndFlag, if_neg hx, if_pos rfl]
  case flag => rw [State.reg_advance, State.reg_setResultAndFlag, if_pos rfl]
  case others =>
    exact fun r hrx hrf => by rw [State.reg_advance, State.reg_setResultAndFlag, if_neg hrf, if_neg hrx]

/-! ### The flags as numbers -/

theorem flagByte_toNat (f : Bool) : (flagByte f).toNat = f.toNat := by
  cases f <;> rfl

theorem flagByte_decide_toNat (p : Prop) [Decidable p] : (flagByte (decide p)).toNat = if p then 1 else 0 := by
  rw [flagByte_toNat, Bool.toNat, Bool.cond_decide]

theorem flagByte_carryOut_toNat (a b : Byte) :
    (flagByte (carryOut a b)).toNat = if a.toNat + b.toNat > 255 then 1 else 0 :=
  flagByte_decide_toNat _

theorem flagByte_noBorrow_toNat (a b : Byte) :
    (flagByte (noBorrow a b)).toNat = if a.toNat > b.toNat then 1 else 0 :=
  flagByte_decide_toNat _

/-- Bit k of a byte is the remainder by 2 of its quotient by 2 ^ k. -/
theorem flagByte_getLsbD_toNat (a : Byte) (k : Nat) : (flagByte (a.getLsbD k)).toNat = a.toNat / 2 ^ k % 2 := by
  rw [flagByte_toNat]; exact Nat.toNat_testBit a.toNat k

theorem flagByte_lowBitOut_toNat (a : Byte) : (flagByte (lowBitOut a)).toNat = a.toNat % 2 :=
  (flagByte_getLsbD_toNat a 0).trans (by rw [Nat.pow_zero, Nat.div_one])

theorem flagByte_highBitOut_toNat (a : Byte) : (flagByte (highBitOut a)).toNat = a.toNat / 128 :=
  have quotient : a.toNat / 128 < 2 := by have := a.isLt; omega
  (flagByte_getLsbD_toNat a 7).trans (Nat.mod_eq_of_lt quotient)

/-! ### The results as numbers -/

theorem byte_sub_toNat (a b : Byte) : (a - b).toNat = (a.toNat + 256 - b.toNat) % 256 := by
  have := b.isLt
  rw [BitVec.toNat_sub]; omega

theorem byte_ushiftRight_one_toNat (a : Byte) : (a >>> 1).toNat = a.toNat / 2 := by
  rw [BitVec.toNat_ushiftRight, Nat.shiftRight_one]

theorem byte_shiftLeft_one_toNat (a : Byte) : (a <<< 1).toNat = a.toNat * 2 % 256 := by
  rw [BitVec.toNat_shiftLeft, Nat.shiftLeft_eq, pow_one]

/-! ### The instructions -/

theorem exec_addReg (x y : Reg) (s : State) : exec (.addReg x y) s =
    .next (s.setResultAndFlag x (s.reg x + s.reg y) (carryOut (s.reg x) (s.reg y))).advance := rfl

theorem exec_subReg (x y : Reg) (s : State) : exec (.subReg x y) s =
    .next (s.setResultAndFlag x (s.reg x - s.reg y) (noBorrow (s.reg x) (s.reg y))).advance := rfl

theorem exec_shr (x : Reg) (s : State) :
    exec (.shr x) s = .next (s.setResultAndFlag x (s.reg x >>> 1) (lowBitOut (s.reg x))).advance := rfl

theorem exec_shl (x : Reg) (s : State) :
    exec (.shl x) s = .next (s.setResultAndFlag x (s.reg x <<< 1) (highBitOut (s.reg x))).advance := rfl

/-- An instruction that answers a result and a flag, both read as numbers: the form all four statements share. -/
theorem exists_next_of_setResultAndFlag {i : Instr} {s : State} {x : Reg} {b : Byte} {f : Bool} {m n : Nat}
    (hexec : exec i s = .next (s.setResultAndFlag x b f).advance) (hresult : b.toNat = m)
    (hflag : (flagByte f).toNat = n) :
    ∃ t, exec i s = .next t ∧ t = { s with v := t.v, pc := s.pc + 2 } ∧ (x ≠ vf → (t.reg x).toNat = m) ∧
      (t.reg vf).toNat = n ∧ ∀ r, r ≠ x → r ≠ vf → t.reg r = s.reg r := by
  obtain ⟨frame, result, flag, others⟩ := s.setResultAndFlag_advance_frame x b f
  exact ⟨_, hexec, frame, fun hx => by rw [result hx, hresult], by rw [flag, hflag], others⟩

/-- Settles O46: the sum of two bytes is their sum modulo 256, and the flag is the test of that sum against 255. -/
theorem addLeavesSumAndCarry : Obligations.AddLeavesSumAndCarry := by
  unfold Obligations.AddLeavesSumAndCarry
  intro x y s
  have hsum : (s.reg x + s.reg y).toNat = ((s.reg x).toNat + (s.reg y).toNat) % 256 := BitVec.toNat_add ..
  exact exists_next_of_setResultAndFlag (exec_addReg x y s) hsum (flagByte_carryOut_toNat _ _)

/-- Settles O47: the difference of two bytes is taken modulo 256, and the flag is the strict comparison. -/
theorem subLeavesDifferenceAndNoBorrow : Obligations.SubLeavesDifferenceAndNoBorrow := by
  unfold Obligations.SubLeavesDifferenceAndNoBorrow
  intro x y s
  exact exists_next_of_setResultAndFlag (exec_subReg x y s) (byte_sub_toNat _ _) (flagByte_noBorrow_toNat _ _)

/-- Settles O49: a shift by one is a halving or a doubling modulo 256, and the bit shifted out is bit 0 or bit 7. -/
theorem shiftsMoveOneBitIntoVf : Obligations.ShiftsMoveOneBitIntoVf := by
  unfold Obligations.ShiftsMoveOneBitIntoVf
  intro x s
  refine ⟨?shr, ?shl⟩
  case shr =>
    exact exists_next_of_setResultAndFlag (exec_shr x s) (byte_ushiftRight_one_toNat _) (flagByte_lowBitOut_toNat _)
  case shl =>
    exact exists_next_of_setResultAndFlag (exec_shl x s) (byte_shiftLeft_one_toNat _) (flagByte_highBitOut_toNat _)

end Sys2Proof.Machine
end

section
/-! The decoder against the encoder and the opcode map (spec/30_encoding.md R61 to R70): a word is put together from
its fields in each of the three formats, and the class field, then the selecting field, fix the decoder's answer. -/

namespace Sys2Proof

theorem wordXYN_c (c : Nibble) (x y : Reg) (n : Nibble) : (fieldsOf (wordXYN c x y n)).c = c :=
  wordXKK_c c x (regBits y ++ n)

theorem wordXYN_x (c : Nibble) (x y : Reg) (n : Nibble) : (fieldsOf (wordXYN c x y n)).x = x :=
  wordXKK_x c x (regBits y ++ n)

/-- The high byte is the first in memory and the low byte the second, so the two bytes give the word back (R47). -/
theorem wordOf_highByte_lowByte (w : Word) : wordOf (highByte w) (lowByte w) = w :=
  (BitVec.extractLsb'_append_extractLsb'_eq_extractLsb' rfl).trans BitVec.extractLsb'_eq_self

/-- The decoder reads the class the encoder wrote, then the field that selects inside the class, then the operands. -/
theorem decodeWord_encode (i : Instr) : decodeWord (encode i) = .ok i := by
  cases i with
  | cls | ret => decide
  | jmp | call | ldI | jmpV0 => simp [decodeWord, selectInstr, encode, wordNNN_fields]
  | seImm | sneImm | ldImm | addImm | rnd =>
    simp [decodeWord, selectInstr, encode, wordXKK_c, wordXKK_x, wordXKK_kk]
  | skp | sknp => simp [decodeWord, selectInstr, decodeClassE, encode, wordXKK_c, wordXKK_x, wordXKK_kk]
  | ldVxDt | ldVxK | ldDtVx | ldStVx | addIVx | ldFVx | ldBVx | storeRegs | loadRegs =>
    simp [decodeWord, selectInstr, decodeClassF, encode, wordXKK_c, wordXKK_x, wordXKK_kk]
  | seReg | sneReg | drw => simp [decodeWord, selectInstr, encode, wordXYN_c, wordXYN_x, wordXYN_y, wordXYN_n]
  | ldReg | orReg | andReg | xorReg | addReg | subReg | shr | subnReg | shl =>
    simp [decodeWord, selectInstr, decodeClass8, encode, wordXYN_c, wordXYN_x, wordXYN_y, wordXYN_n]

theorem decodeBytes_encodeBytes (i : Instr) (rest : List Byte) :
    decodeBytes (encodeBytes i ++ rest) = .ok (i, rest) := by
  simp [encodeBytes, decodeBytes, wordOf_highByte_lowByte, decodeWord_encode]

/-- Settles O1: the decoder reads back the fields the encoder wrote, and the two bytes in memory order are the word. -/
theorem decodeOfEncodeIsIdentity : Obligations.DecodeOfEncodeIsIdentity := by
  unfold Obligations.DecodeOfEncodeIsIdentity
  exact fun i => ⟨decodeWord_encode i, decodeBytes_encodeBytes i⟩

/-- Settles O7, each word by evaluating the decoder. -/
theorem sampleWordsDecode : Obligations.SampleWordsDecode := by
  unfold Obligations.SampleWordsDecode
  decide

/-! ### A word put together from its fields -/

theorem kk_eq_y_append_n (w : Word) : (fieldsOf w).kk = regBits (fieldsOf w).y ++ (fieldsOf w).n :=
  (BitVec.extractLsb'_append_extractLsb'_eq_extractLsb' (show 4 = 0 + 4 from rfl) (len₂ := 4) (x := w)).symm

theorem nnn_eq_x_append_kk (w : Word) : (fieldsOf w).nnn = regBits (fieldsOf w).x ++ (fieldsOf w).kk :=
  (BitVec.extractLsb'_append_extractLsb'_eq_extractLsb' (show 8 = 0 + 8 from rfl) (len₂ := 4) (x := w)).symm

theorem wordNNN_fieldsOf (w : Word) : wordNNN (fieldsOf w).c (fieldsOf w).nnn = w :=
  (BitVec.extractLsb'_append_extractLsb'_eq_extractLsb' rfl).trans BitVec.extractLsb'_eq_self

theorem wordXKK_fieldsOf (w : Word) : wordXKK (fieldsOf w).c (fieldsOf w).x (fieldsOf w).kk = w := by
  rw [wordXKK, ← nnn_eq_x_append_kk]
  exact wordNNN_fieldsOf w

theorem wordXYN_fieldsOf (w : Word) : wordXYN (fieldsOf w).c (fieldsOf w).x (fieldsOf w).y (fieldsOf w).n = w := by
  rw [wordXYN_eq, ← kk_eq_y_append_n]
  exact wordXKK_fieldsOf w

/-- Clearing the y field of a word clears nothing else. -/
theorem wordXYN_clear_y (c : Nibble) (x y : Reg) (n : Nibble) : wordXYN c x y n &&& 0xFF0F#16 = wordXYN c x 0 n := by
  have hmask : 0xFF0F#16 = 0xF#4 ++ (0xF#4 ++ (0x0#4 ++ 0xF#4)) := by decide
  rw [hmask, wordXYN, BitVec.and_append, BitVec.and_append, BitVec.and_append]
  exact congrArg₂ _ BitVec.and_allOnes (congrArg₂ _ BitVec.and_allOnes (congrArg₂ _ BitVec.and_zero BitVec.and_allOnes))

/-! ### The word an instruction was decoded from -/

/-- The word as its instruction assembles: the word itself, the ignored y field of SHR and SHL cleared (R68, D27). -/
def canonicalWord (i : Instr) (w : Word) : Word :=
  match i with
  | .shr _ | .shl _ => w &&& 0xFF0F#16
  | _ => w

theorem encode_of_decodeClass8 {f : Fields} {i : Instr} (h : decodeClass8 f = some i) :
    encode i = canonicalWord i (wordXYN 0x8#4 f.x f.y f.n) := by
  unfold decodeClass8 at h
  split at h <;> cases h <;> simp [encode, canonicalWord, wordXYN_clear_y, *]

theorem encode_of_decodeClassE {f : Fields} {i : Instr} (h : decodeClassE f = some i) :
    encode i = canonicalWord i (wordXKK 0xE#4 f.x f.kk) := by
  unfold decodeClassE at h
  split at h <;> cases h <;> simp [encode, canonicalWord, *]

theorem encode_of_decodeClassF {f : Fields} {i : Instr} (h : decodeClassF f = some i) :
    encode i = canonicalWord i (wordXKK 0xF#4 f.x f.kk) := by
  unfold decodeClassF at h
  split at h <;> cases h <;> simp [encode, canonicalWord, *]

theorem encode_of_decodeClass0 {w : Word} {i : Instr} (h : decodeClass0 w = some i) :
    encode i = canonicalWord i w := by
  unfold decodeClass0 at h
  split at h
  next hw => cases h; exact hw.symm
  next =>
    split at h
    next hw => cases h; exact hw.symm
    next => cases h

/-- A recognized word is the one its instruction assembles to, in the form assembly gives it: each class by the format
its operands are read in. -/
theorem encode_of_selectInstr {w : Word} {i : Instr} (h : selectInstr w = some i) :
    encode i = canonicalWord i w := by
  have hNNN := wordNNN_fieldsOf w
  have hXKK := wordXKK_fieldsOf w
  have hXYN := wordXYN_fieldsOf w
  simp only [selectInstr] at h
  split at h <;> rename_i hc
  case h_1 => exact encode_of_decodeClass0 h
  case h_2 | h_3 | h_11 | h_12 => cases h; rw [hc] at hNNN; exact hNNN
  case h_4 | h_5 | h_7 | h_8 | h_13 => cases h; rw [hc] at hXKK; exact hXKK
  case h_6 | h_10 =>
    split at h
    next hn => cases h; rw [hc, hn] at hXYN; exact hXYN
    next => cases h
  case h_9 => rw [encode_of_decodeClass8 h, ← hc, hXYN]
  case h_14 => cases h; rw [hc] at hXYN; exact hXYN
  case h_15 => rw [encode_of_decodeClassE h, ← hc, hXKK]
  case h_16 => rw [encode_of_decodeClassF h, ← hc, hXKK]
  case h_17 => cases h

theorem selectInstr_of_decodeWord {w : Word} {i : Instr} (h : decodeWord w = .ok i) : selectInstr w = some i := by
  unfold decodeWord at h
  split at h
  next hi => cases h; exact hi
  next => cases h

/-- Settles O2: the word is put together from the fields its instruction was decoded from. -/
theorem encodeOfDecodeRestoresWord : Obligations.EncodeOfDecodeRestoresWord := by
  unfold Obligations.EncodeOfDecodeRestoresWord
  exact fun w i h => encode_of_selectInstr (selectInstr_of_decodeWord h)

/-! ### The opcode map -/

/-- Two rows that one word matches agree on the bits both fix. -/
theorem OpcodeRow.agree_of_selects {r₁ r₂ : OpcodeRow} {w : Word} (h₁ : r₁.selects w = true)
    (h₂ : r₂.selects w = true) : r₁.pattern &&& r₂.mask = r₂.pattern &&& r₁.mask := by
  rw [← beq_iff_eq.1 h₁, ← beq_iff_eq.1 h₂, BitVec.and_assoc, BitVec.and_comm r₁.mask, ← BitVec.and_assoc]

/-- Two rows of the map that agree on the bits both fix are one row. -/
theorem opcodeRow_eq_of_agree : ∀ r₁ ∈ opcodeTable, ∀ r₂ ∈ opcodeTable,
    r₁.pattern &&& r₂.mask = r₂.pattern &&& r₁.mask → r₁ = r₂ := by
  decide

/-- Settles O3: the rows a word matches agree on the bits they fix, and no two rows of the map do. -/
theorem opcodeRowsAreDisjoint : Obligations.OpcodeRowsAreDisjoint := by
  unfold Obligations.OpcodeRowsAreDisjoint
  exact fun w r₁ hr₁ r₂ hr₂ h₁ h₂ => opcodeRow_eq_of_agree r₁ hr₁ r₂ hr₂ (OpcodeRow.agree_of_selects h₁ h₂)

/-- The word masked by a row is the row's pattern. -/
theorem OpcodeRow.selects_iff (r : OpcodeRow) (w : Word) : r.selects w = true ↔ w &&& r.mask = r.pattern :=
  beq_iff_eq

/-- A row that fixes the class alone selects the words of that class. -/
theorem c_eq_of_selects {r : OpcodeRow} {w : Word} (hm : r.mask = 0xF000) (h : r.selects w = true) :
    (fieldsOf w).c = (fieldsOf r.pattern).c := by
  rw [← (r.selects_iff w).1 h, hm, ← wordNNN_fieldsOf w, wordNNN_mask, (wordNNN_fields _ _).1]
  exact (wordNNN_fields _ 0).1.symm

/-- A row that fixes the class and n selects the words with that class and n. -/
theorem c_n_eq_of_selects {r : OpcodeRow} {w : Word} (hm : r.mask = 0xF00F) (h : r.selects w = true) :
    (fieldsOf w).c = (fieldsOf r.pattern).c ∧ (fieldsOf w).n = (fieldsOf r.pattern).n := by
  rw [← (r.selects_iff w).1 h, hm, ← wordXYN_fieldsOf w, wordXYN_mask_n, wordXYN_c, wordXYN_n]
  exact ⟨(wordXYN_c _ 0 0 _).symm, (wordXYN_n _ 0 0 _).symm⟩

/-- A row that fixes the class and kk selects the words with that class and kk. -/
theorem c_kk_eq_of_selects {r : OpcodeRow} {w : Word} (hm : r.mask = 0xF0FF) (h : r.selects w = true) :
    (fieldsOf w).c = (fieldsOf r.pattern).c ∧ (fieldsOf w).kk = (fieldsOf r.pattern).kk := by
  rw [← (r.selects_iff w).1 h, hm, ← wordXKK_fieldsOf w, wordXKK_mask_kk, wordXKK_c, wordXKK_kk]
  exact ⟨(wordXKK_c _ 0 _).symm, (wordXKK_kk _ 0 _).symm⟩

/-- The decoder answers an instruction of the row for every word the row selects (R64). -/
def OpcodeRow.Decodes (r : OpcodeRow) : Prop :=
  ∀ w : Word, r.selects w = true → ∃ i, decodeWord w = .ok i ∧ i.mnemonic = r.mnemonic

theorem opcodeRowsLow_decode : ∀ r ∈ opcodeRowsLow, r.Decodes := by
  simp only [opcodeRowsLow, List.forall_mem_cons]
  refine ⟨?cls, ?ret, ?jmp, ?call, ?seImm, ?sneImm, ?seReg, ?ldImm, ?addImm, List.forall_mem_nil _⟩ <;> intro w hw
  case cls | ret =>
    have hw := (OpcodeRow.selects_iff _ _).1 hw
    have hw : w = _ := (BitVec.and_allOnes (x := w)).symm.trans hw
    subst hw; exact ⟨_, rfl, rfl⟩
  case jmp | call | seImm | sneImm | ldImm | addImm =>
    have hc := c_eq_of_selects rfl hw
    simp [fieldsOf] at hc
    simp [decodeWord, selectInstr, fieldsOf, hc, Instr.mnemonic]
  case seReg =>
    obtain ⟨hc, hn⟩ := c_n_eq_of_selects rfl hw
    simp [fieldsOf] at hc hn
    simp [decodeWord, selectInstr, fieldsOf, hc, hn, Instr.mnemonic]

theorem opcodeRowsAlu_decode : ∀ r ∈ opcodeRowsAlu, r.Decodes := by
  simp only [opcodeRowsAlu, List.forall_mem_cons]
  refine ⟨?ld, ?or, ?and, ?xor, ?add, ?sub, ?shr, ?subn, ?shl, List.forall_mem_nil _⟩ <;> intro w hw
  all_goals
    obtain ⟨hc, hn⟩ := c_n_eq_of_selects rfl hw
    simp [fieldsOf] at hc hn
    simp [decodeWord, selectInstr, decodeClass8, fieldsOf, hc, hn, Instr.mnemonic]

theorem opcodeRowsHigh_decode : ∀ r ∈ opcodeRowsHigh, r.Decodes := by
  simp only [opcodeRowsHigh, List.forall_mem_cons]
  refine ⟨?sneReg, ?ldI, ?jmpV0, ?rnd, ?drw, ?skp, ?sknp, ?ldVxDt, ?ldVxK, ?ldDtVx, ?ldStVx, ?addIVx, ?ldFVx, ?ldBVx,
    ?storeRegs, ?loadRegs, List.forall_mem_nil _⟩ <;> intro w hw
  case sneReg =>
    obtain ⟨hc, hn⟩ := c_n_eq_of_selects rfl hw
    simp [fieldsOf] at hc hn
    simp [decodeWord, selectInstr, fieldsOf, hc, hn, Instr.mnemonic]
  case ldI | jmpV0 | rnd | drw =>
    have hc := c_eq_of_selects rfl hw
    simp [fieldsOf] at hc
    simp [decodeWord, selectInstr, fieldsOf, hc, Instr.mnemonic]
  all_goals
    obtain ⟨hc, hkk⟩ := c_kk_eq_of_selects rfl hw
    simp [fieldsOf] at hc hkk
    simp [decodeWord, selectInstr, decodeClassE, decodeClassF, fieldsOf, hc, hkk, Instr.mnemonic]

/-- Every row of the map selects only words that decode to an instruction of that row (R64). -/
theorem opcodeTable_decodes : ∀ r ∈ opcodeTable, r.Decodes := by
  simp only [opcodeTable, List.forall_mem_append]
  exact ⟨⟨opcodeRowsLow_decode, opcodeRowsAlu_decode⟩, opcodeRowsHigh_decode⟩

theorem encodingInRow (i : Instr) : Laws.EncodingInRow.Statement i := by
  cases i with
  | cls => exact Laws.EncodingInRow.cls
  | ret => exact Laws.EncodingInRow.ret
  | jmp nnn => exact Laws.EncodingInRow.jmp nnn
  | call nnn => exact Laws.EncodingInRow.call nnn
  | seImm x kk => exact Laws.EncodingInRow.seImm x kk
  | sneImm x kk => exact Laws.EncodingInRow.sneImm x kk
  | seReg x y => exact Laws.EncodingInRow.seReg x y
  | ldImm x kk => exact Laws.EncodingInRow.ldImm x kk
  | addImm x kk => exact Laws.EncodingInRow.addImm x kk
  | ldReg x y => exact Laws.EncodingInRow.ldReg x y
  | orReg x y => exact Laws.EncodingInRow.orReg x y
  | andReg x y => exact Laws.EncodingInRow.andReg x y
  | xorReg x y => exact Laws.EncodingInRow.xorReg x y
  | addReg x y => exact Laws.EncodingInRow.addReg x y
  | subReg x y => exact Laws.EncodingInRow.subReg x y
  | shr x => exact Laws.EncodingInRow.shr x
  | subnReg x y => exact Laws.EncodingInRow.subnReg x y
  | shl x => exact Laws.EncodingInRow.shl x
  | sneReg x y => exact Laws.EncodingInRow.sneReg x y
  | ldI nnn => exact Laws.EncodingInRow.ldI nnn
  | jmpV0 nnn => exact Laws.EncodingInRow.jmpV0 nnn
  | rnd x kk => exact Laws.EncodingInRow.rnd x kk
  | drw x y n => exact Laws.EncodingInRow.drw x y n
  | skp x => exact Laws.EncodingInRow.skp x
  | sknp x => exact Laws.EncodingInRow.sknp x
  | ldVxDt x => exact Laws.EncodingInRow.ldVxDt x
  | ldVxK x => exact Laws.EncodingInRow.ldVxK x
  | ldDtVx x => exact Laws.EncodingInRow.ldDtVx x
  | ldStVx x => exact Laws.EncodingInRow.ldStVx x
  | addIVx x => exact Laws.EncodingInRow.addIVx x
  | ldFVx x => exact Laws.EncodingInRow.ldFVx x
  | ldBVx x => exact Laws.EncodingInRow.ldBVx x
  | storeRegs x => exact Laws.EncodingInRow.storeRegs x
  | loadRegs x => exact Laws.EncodingInRow.loadRegs x

/-- The rows of SHR and SHL leave the y field out of their mask. -/
theorem mask_of_shift_row : ∀ r ∈ opcodeTable, r.mnemonic = "SHR_Vx" ∨ r.mnemonic = "SHL_Vx" →
    0xFF0F#16 &&& r.mask = r.mask := by
  decide

/-- A word that decodes to an instruction matches a row of the map: the row that selects what it assembles to, whose
mask leaves out every bit that assembly may clear. -/
theorem wellFormedWord_of_selectInstr {w : Word} {i : Instr} (h : selectInstr w = some i) :
    wellFormedWord w = true := by
  obtain ⟨r, hr, hname, hsel⟩ := encodingInRow i
  refine List.any_eq_true.2 ⟨r, hr, (r.selects_iff w).2 ?_⟩
  rw [encode_of_selectInstr h] at hsel
  have hsel := (r.selects_iff _).1 hsel
  cases i
  case shr => rwa [canonicalWord, BitVec.and_assoc, mask_of_shift_row r hr (.inl hname)] at hsel
  case shl => rwa [canonicalWord, BitVec.and_assoc, mask_of_shift_row r hr (.inr hname)] at hsel
  all_goals exact hsel

/-- Settles O4: a row's word decodes by that row, and a word that decodes matches the row of its instruction. -/
theorem decoderFollowsOpcodeTable : Obligations.DecoderFollowsOpcodeTable := by
  unfold Obligations.DecoderFollowsOpcodeTable
  refine fun w => ⟨fun r hr hw => opcodeTable_decodes r hr w hw, fun hno => ?_⟩
  unfold decodeWord
  split
  next hi => rw [wellFormedWord_of_selectInstr hi] at hno; cases hno
  next => rfl

/-! ### The unrecognized words -/

theorem decodeWord_unrecognized_iff (w : Word) :
    decodeWord w = .error (.unrecognized w) ↔ selectInstr w = none := by
  unfold decodeWord
  cases selectInstr w <;> simp

theorem decodeClass0_eq_none_iff (w : Word) :
    decodeClass0 w = none ↔ w.toNat ≠ 0x00E0 ∧ w.toNat ≠ 0x00EE := by
  unfold decodeClass0
  split <;> simp_all [← BitVec.toNat_inj]

theorem decodeClass8_eq_none_iff (f : Fields) :
    decodeClass8 f = none ↔ f.n.toNat ∈ [0x8, 0x9, 0xA, 0xB, 0xC, 0xD, 0xF] := by
  have hlt := f.n.isLt
  unfold decodeClass8
  split <;> simp_all [← BitVec.toNat_inj]
  omega

theorem decodeClassE_eq_none_iff (f : Fields) :
    decodeClassE f = none ↔ f.kk.toNat ∉ [0x9E, 0xA1] := by
  unfold decodeClassE
  split <;> simp_all [← BitVec.toNat_inj]

theorem decodeClassF_eq_none_iff (f : Fields) :
    decodeClassF f = none ↔ f.kk.toNat ∉ [0x07, 0x0A, 0x15, 0x18, 0x1E, 0x29, 0x33, 0x55, 0x65] := by
  unfold decodeClassF
  split <;> simp_all [← BitVec.toNat_inj]

/-- The sixteen classes are all there are. -/
theorem nibble_exhausted : ∀ c : Nibble, c = 0#4 ∨ c = 1#4 ∨ c = 2#4 ∨ c = 3#4 ∨ c = 4#4 ∨ c = 5#4 ∨ c = 6#4 ∨
    c = 7#4 ∨ c = 8#4 ∨ c = 9#4 ∨ c = 10#4 ∨ c = 11#4 ∨ c = 12#4 ∨ c = 13#4 ∨ c = 14#4 ∨ c = 15#4 := by
  decide

/-- Settles O5: in each class the decoder rejects by the word, by n, by kk or not at all. -/
theorem unrecognizedWordsAreTheListedOnes : Obligations.UnrecognizedWordsAreTheListedOnes := by
  unfold Obligations.UnrecognizedWordsAreTheListedOnes
  intro w
  rw [decodeWord_unrecognized_iff, ← fieldsOf_c_toNat, ← fieldsOf_n_toNat, ← fieldsOf_kk_toNat]
  simp only [selectInstr]
  split <;> rename_i hc
  case h_1 => simp only [decodeClass0_eq_none_iff, hc]; simp
  case h_9 => simp only [decodeClass8_eq_none_iff, hc]; simp
  case h_15 => simp only [decodeClassE_eq_none_iff, hc]; simp
  case h_16 => simp only [decodeClassF_eq_none_iff, hc]; simp
  case h_6 | h_10 => simp [hc, ← BitVec.toNat_inj]
  case h_17 =>
    refine absurd (nibble_exhausted (fieldsOf w).c) ?_
    simp only [not_or]
    and_intros <;> assumption
  all_goals simp [hc]

end Sys2Proof
end

section
/-! What only some instructions may write (spec/10_state.md sections 2 and 4, 20_memory.md section 2): the frame of the
execute phase, said once field by field, and the statements that read it. -/

namespace Sys2Proof.Machine

/-! ### Registers -/

/-- Every register but the destinations keeps its value: most instructions write none, the others one, one and VF, or
the first x + 1. -/
theorem reg_eq_of_completed {i : Instr} {s t : State} {r : Reg} (hform : CompletedForm i s t) (hr : r ∉ destinations i) :
    t.reg r = s.reg r := by
  cases i
  case cls | jmp | jmpV0 | seImm | sneImm | seReg | sneReg | ldI | addIVx | ldFVx | ldDtVx | ldStVx | ldVxK =>
    cases hform; rfl
  case ret | call | skp | sknp | ldBVx | storeRegs => obtain ⟨_, rfl⟩ := hform; rfl
  case ldImm x _ | addImm x _ | rnd x _ | ldVxDt x | ldReg x _ | orReg x _ | andReg x _ | xorReg x _ =>
    cases hform
    rw [State.reg_advance, State.reg_setReg_ne _ _ _ _ (List.ne_of_not_mem_cons hr)]
  case addReg x _ | subReg x _ | shr x | subnReg x _ | shl x =>
    cases hform
    obtain ⟨hx, hf⟩ : r ≠ x ∧ r ≠ vf := by simpa [destinations] using hr
    rw [State.reg_advance, State.reg_setResultAndFlag, if_neg hf, if_neg hx]
  case drw x y n =>
    cases hform
    rw [State.reg_advance, State.reg_setReg_ne _ _ _ _ (List.ne_of_not_mem_cons hr)]
    rfl
  case loadRegs x =>
    obtain ⟨_, rfl⟩ := hform
    have hx : ¬ r.val ≤ x.val := by simpa [destinations] using hr
    rw [State.reg_advance, State.reg_loadRun, if_neg hx]

/-- Settles O30: a fatal error writes no register, and a completed instruction none but its destinations. -/
theorem onlyDestinationRegistersChange : Obligations.OnlyDestinationRegistersChange := by
  unfold Obligations.OnlyDestinationRegistersChange
  intro i s t r h hr
  rcases exec_cases i s with ⟨e, _, hx⟩ | ⟨hn, _⟩
  case inl => rw [hx] at h; cases h; rfl
  case inr => exact reg_eq_of_completed (exec_completed_form h hn) hr

/-! ### The other fields -/

/-- Every piece of state but V, PC, HALTED, ERR and the outputs is as it was, unless the instruction is one of its
writers. -/
structure Frame (i : Instr) (s t : State) : Prop where
  index : t.i ≠ s.i → (∃ nnn, i = .ldI nnn) ∨ (∃ x, i = .addIVx x) ∨ (∃ x, i = .ldFVx x)
  fb : t.fb ≠ s.fb → i = .cls ∨ ∃ x y n, i = .drw x y n
  mem : t.mem ≠ s.mem → (∃ x, i = .ldBVx x) ∨ ∃ x, i = .storeRegs x
  sp : t.sp ≠ s.sp → (∃ nnn, i = .call nnn) ∨ i = .ret
  stack : t.stack ≠ s.stack → ∃ nnn, i = .call nnn
  dt : t.dt ≠ s.dt → ∃ x, i = .ldDtVx x
  st : t.st ≠ s.st → ∃ x, i = .ldStVx x
  wait : t.waiting ≠ s.waiting ∨ t.waitX ≠ s.waitX → ∃ x, i = .ldVxK x
  draw : t.draw ≠ s.draw → ∃ x y n, i = .drw x y n
  inputs : t.keys = s.keys ∧ t.inputs = s.inputs ∧ t.cycle = s.cycle

/-- A fatal error writes none of it (R90). -/
theorem Frame.of_halt (i : Instr) (s : State) (e : FatalError) : Frame i s (s.halt e) := by
  constructor <;> simp

theorem frame_of_completed {i : Instr} {s t : State} (hform : CompletedForm i s t) : Frame i s t := by
  cases i
  case ret | call | skp | sknp | ldBVx | storeRegs | loadRegs => obtain ⟨_, rfl⟩ := hform; constructor <;> simp
  all_goals cases hform; constructor <;> simp [State.setResultAndFlag]

theorem exec_frame {i : Instr} {s t : State} (h : exec i s = .next t) : Frame i s t :=
  exec_property Frame.of_halt (fun _ _ _ h hn => frame_of_completed (exec_completed_form h hn)) i s t h

/-- Settles O32: the two fields of the frame, read directly. -/
theorem framebufferAndIndexHaveFewWriters : Obligations.FramebufferAndIndexHaveFewWriters := by
  unfold Obligations.FramebufferAndIndexHaveFewWriters
  exact fun i s t h => ⟨(exec_frame h).fb, (exec_frame h).index⟩

/-- Settles O35: the fields of the frame, read directly. -/
theorem timersKeysAndHiddenBitsHaveOneWriter : Obligations.TimersKeysAndHiddenBitsHaveOneWriter := by
  unfold Obligations.TimersKeysAndHiddenBitsHaveOneWriter
  intro i s t h
  have frame := exec_frame h
  obtain ⟨hkeys, hinputs, hcycle⟩ := frame.inputs
  exact ⟨hkeys, hinputs, hcycle, frame.dt, frame.st, frame.wait, frame.draw⟩

/-! ### Memory -/

/-- A byte that a run of bytes stored from I up has changed lies in the run. -/
theorem State.mem_range_of_read_store_ne {s : State} {bytes : List Byte} {a : Nat}
    (h : (s.store (s.address 0) bytes).mem.read a ≠ s.mem.read a) :
    s.i.toNat ≤ a ∧ a < s.i.toNat + bytes.length := by
  by_contra hout
  exact h (by rw [State.read_store_at_I, State.byteUnderStore, if_neg hout])

/-- Settles O33: the two storing instructions store a run of bytes from I up, 3 of them or x + 1. -/
theorem onlyLdBAndStoreChangeMemory : Obligations.OnlyLdBAndStoreChangeMemory := by
  unfold Obligations.OnlyLdBAndStoreChangeMemory
  intro i s t a h hread
  rcases exec_cases i s with ⟨e, _, hx⟩ | ⟨hn, _⟩
  case inl => rw [hx] at h; cases h; exact absurd rfl hread
  case inr =>
    have hform := exec_completed_form h hn
    rcases (exec_frame h).mem (fun hm => hread (by rw [hm])) with ⟨x, rfl⟩ | ⟨x, rfl⟩
    · obtain ⟨_, rfl⟩ := hform
      obtain ⟨hlo, hhi⟩ := State.mem_range_of_read_store_ne hread
      have hlen : (bcdDigits (s.reg x)).length = 3 := rfl
      exact .inl ⟨x, rfl, hlo, by omega⟩
    · obtain ⟨_, rfl⟩ := hform
      obtain ⟨hlo, hhi⟩ := State.mem_range_of_read_store_ne hread
      rw [State.regsUpTo_length] at hhi
      exact .inr ⟨x, rfl, hlo, by omega⟩

/-! ### The stack -/

/-- The entries after a push: the pushed word at the old SP, the others as before (R16). -/
theorem State.push_stack_getElem (s : State) (w : Word) (room : s.sp.val < 16) (j : Fin 16) :
    (s.push w room).stack[j] = if j.val = s.sp.val then w else s.stack[j] := by
  simp [Vector.getElem_set, eq_comm]

/-- Settles O34: a CALL that does not overflow writes the entry at SP, and no other. -/
theorem onlyCallAndRetChangeTheStack : Obligations.OnlyCallAndRetChangeTheStack := by
  unfold Obligations.OnlyCallAndRetChangeTheStack
  refine fun i s t h => ⟨(exec_frame h).sp, fun j hj => ?_⟩
  obtain ⟨nnn, rfl⟩ := (exec_frame h).stack (fun hs => hj (by rw [hs]))
  refine ⟨⟨nnn, rfl⟩, ?_⟩
  rcases exec_cases (.call nnn) s with ⟨e, _, hx⟩ | ⟨hn, _⟩
  case inl => rw [hx] at h; cases h; exact absurd rfl hj
  case inr =>
    obtain ⟨room, rfl⟩ := exec_completed_form h hn
    by_contra hne
    exact hj ((s.push_stack_getElem s.pc room j).trans (if_neg hne))

/-! ### VF -/

/-- An instruction with a flag rule leaves its flag in VF: it writes VF last, or nowhere else (R11, R130). -/
theorem reg_vf_of_flagOf {i : Instr} {s t : State} {f : Bool} (hform : CompletedForm i s t)
    (hf : flagOf i s = some f) : t.reg vf = flagByte f := by
  cases i <;> cases hf <;> cases hform
  case addReg | subReg | shr | subnReg | shl => rw [State.reg_advance, State.reg_setResultAndFlag, if_pos rfl]
  case drw => rw [State.reg_advance, State.reg_setReg_self]

/-- Without a flag rule, VF is a destination only as register x. -/
theorem vf_not_mem_destinations {i : Instr} {s : State} (hf : flagOf i s = none) (hx : xField i ≠ some vf) :
    vf ∉ destinations i := by
  cases i
  case addReg | subReg | shr | subnReg | shl | drw => cases hf
  case loadRegs x =>
    have hne : x ≠ vf := fun h => hx (congrArg some h)
    have hlt : x.val < vf.val := lt_of_le_of_ne (Nat.le_of_lt_succ x.isLt) (Fin.val_ne_of_ne hne)
    simpa [destinations] using hlt
  all_goals simp_all [destinations, xField, eq_comm]

theorem step_of_waiting {s : State} (hh : s.halted = false) (hw : s.waiting = true) : step s = .next s.waitCycle := by
  simp [step, hh, hw]

theorem step_of_halted {s : State} (hh : s.halted = true) : step s = .next s.haltedCycle := by
  simp [step, hh]

/-- The event changes no register but the one waited for (R82). -/
theorem State.reg_takeKey_ne (s : State) (event : Option Key) {r : Reg} (hr : r ≠ s.waitX) :
    (s.takeKey event).reg r = s.reg r := by
  cases event with
  | none => rfl
  | some k => exact s.reg_setReg_ne s.waitX r (keyByte k) hr

theorem State.reg_waitCycle_ne (s : State) {r : Reg} (hr : r ≠ s.waitX) : s.waitCycle.reg r = s.reg r :=
  s.begin.reg_takeKey_ne s.input.keyEvent hr

/-- Settles O31: the flag is the last byte written to VF, and without a flag rule VF is written as register x only, by
LD Vx, K in the wait cycle that takes the key. -/
theorem vfIsTheFlagOutput : Obligations.VfIsTheFlagOutput := by
  unfold Obligations.VfIsTheFlagOutput
  refine ⟨fun i s t _ h ht => ⟨fun f hf => ?flag, fun hf hx => ?others⟩, fun s t hw hx h => ?wait⟩
  case flag => exact reg_vf_of_flagOf (exec_completed_form h (raisedBy_none_of_goesOn h ht)) hf
  case others => exact onlyDestinationRegistersChange i s t vf h (vf_not_mem_destinations hf hx)
  case wait =>
    cases hh : s.halted with
    | true => rw [step_of_halted hh] at h; cases h; rfl
    | false => rw [step_of_waiting hh hw] at h; cases h; exact s.reg_waitCycle_ne hx.symm

end Sys2Proof.Machine
end

section
/-! The invariant (spec/10_state.md R14, R21, R23; 20_memory.md R54): reset and load meet it, and every step keeps
it. Each piece of it is kept by its own writers. -/

namespace Sys2Proof.Machine

/-! ### PC after a completed instruction -/

theorem State.advance_pc_toNat (s : State) (h : s.pc.toNat ≤ 0xFFE) : s.advance.pc.toNat = s.pc.toNat + 2 := by
  rw [State.advance_pc, BitVec.toNat_add_of_lt] <;> simp
  omega

theorem State.skipIf_pc_toNat_le (s : State) (c : Bool) (h : s.pc.toNat ≤ 0xFFE) :
    (s.skipIf c).pc.toNat ≤ s.pc.toNat + 4 := by
  rw [State.skipIf_pc]
  cases c <;> simp [BitVec.toNat_add] <;> omega

@[simp] theorem byteToWord_toNat (b : Byte) : (byteToWord b).toNat = b.toNat :=
  BitVec.toNat_setWidth_of_le (by decide)

/-- The full sum of a 12-bit address and a byte fits in 16 bits, so it does not wrap (R103). -/
theorem zext16_add_byteToWord_toNat (nnn : Imm12) (b : Byte) :
    (zext16 nnn + byteToWord b).toNat = nnn.toNat + b.toNat := by
  have hn := nnn.isLt
  have hb := b.isLt
  rw [BitVec.toNat_add, zext16_toNat, byteToWord_toNat]
  omega

theorem State.top_toNat_le {s : State} (hs : s.StackInv) (used : 0 < s.sp.val) : (s.top used).toNat ≤ 0xFFE := by
  have hlt : s.sp.val - 1 < 16 := by have := s.sp.isLt; omega
  exact hs ⟨s.sp.val - 1, hlt⟩ (Nat.sub_lt used Nat.one_pos)

/-- Where PC can go from a fetch address: a little way on, to a 12-bit address plus a byte, or back after a CALL. -/
theorem pc_le_of_completed {i : Instr} {s t : State} (hform : CompletedForm i s t) (hs : s.StackInv)
    (hpc : s.pc.toNat ≤ 0xFFE) : t.pc.toNat ≤ 0x10FE := by
  have hadvance : (s.pc + 2).toNat ≤ 0x10FE := by have := s.advance_pc_toNat hpc; rw [State.advance_pc] at this; omega
  have hskip : ∀ c, (s.skipIf c).pc.toNat ≤ 0x10FE := fun c => (s.skipIf_pc_toNat_le c hpc).trans (by omega)
  have htarget : ∀ nnn : Imm12, (zext16 nnn).toNat ≤ 0x10FE := fun nnn => by
    have := nnn.isLt; rw [zext16_toNat]; omega
  cases i
  case ret =>
    obtain ⟨used, rfl⟩ := hform
    have htop := State.top_toNat_le hs used
    rw [State.setPc_pc, BitVec.toNat_add]
    exact (Nat.mod_le _ _).trans ((Nat.add_le_add_right htop 2).trans (by decide))
  case jmp nnn => cases hform; exact htarget nnn
  case call nnn => obtain ⟨_, rfl⟩ := hform; exact htarget nnn
  case jmpV0 nnn =>
    cases hform
    have hn := nnn.isLt
    have hv := (s.reg 0).isLt
    rw [State.setPc_pc, zext16_add_byteToWord_toNat]
    omega
  case seImm | sneImm | seReg | sneReg => cases hform; exact hskip _
  case skp | sknp => obtain ⟨_, rfl⟩ := hform; exact hskip _
  case ldVxK => cases hform; exact hpc.trans (by decide)
  case ldBVx | storeRegs | loadRegs => obtain ⟨_, rfl⟩ := hform; exact hadvance
  all_goals cases hform; exact hadvance

/-! ### The other pieces after a completed instruction -/

/-- A store is checked to lie inside MEM before it is done, so it keeps the canonical form (R43, R54). -/
theorem mem_wf_of_completed {i : Instr} {s t : State} (hform : CompletedForm i s t) (hm : s.mem.wf = true) :
    t.mem.wf = true := by
  by_cases hne : t.mem = s.mem
  · rwa [hne]
  · rcases (frame_of_completed hform).mem hne with ⟨x, rfl⟩ | ⟨x, rfl⟩
    · obtain ⟨hin, rfl⟩ := hform
      exact Memory.wf_writeRun hm hin
    · obtain ⟨hin, rfl⟩ := hform
      exact Memory.wf_writeRun hm (by rwa [State.regsUpTo_length])

/-- The one entry a CALL adds is the address it was fetched from (R14, R16). -/
theorem State.StackInv.push {s : State} (hs : s.StackInv) {w : Word} (hw : w.toNat ≤ 0xFFE) (room : s.sp.val < 16) :
    (s.push w room).StackInv := by
  intro j hj
  rw [State.push_stack_getElem]
  split
  next => exact hw
  next hne =>
    have hlt : j.val < s.sp.val + 1 := hj
    exact hs j (by omega)

theorem State.StackInv.pop {s : State} (hs : s.StackInv) : s.pop.StackInv := fun j hj =>
  hs j (Nat.lt_of_lt_of_le hj (Nat.sub_le ..))

/-- The live entries depend on SP and the entries alone. -/
theorem State.StackInv.congr {s t : State} (hs : s.StackInv) (hsp : t.sp = s.sp) (hst : t.stack = s.stack) :
    t.StackInv := by
  unfold State.StackInv
  rwa [hsp, hst]

theorem stackInv_of_completed {i : Instr} {s t : State} (hform : CompletedForm i s t) (hs : s.StackInv)
    (hpc : s.pc.toNat ≤ 0xFFE) : t.StackInv := by
  have frame := frame_of_completed hform
  by_cases hcall : ∃ nnn, i = .call nnn
  · obtain ⟨nnn, rfl⟩ := hcall
    obtain ⟨room, rfl⟩ := hform
    exact hs.push hpc room
  · have hst : t.stack = s.stack := not_not.1 (mt frame.stack hcall)
    by_cases hret : i = .ret
    · subst hret
      obtain ⟨used, rfl⟩ := hform
      exact hs.pop
    · exact hs.congr (not_not.1 (mt frame.sp (not_or.2 ⟨hcall, hret⟩))) hst

/-- An instruction that starts the wait leaves PC at its own address (R82). -/
theorem pc_le_of_waiting_of_completed {i : Instr} {s t : State} (hform : CompletedForm i s t)
    (hs : s.waiting = false) (hpc : s.pc.toNat ≤ 0xFFE) (ht : t.waiting = true) : t.pc.toNat ≤ 0xFFE := by
  have hne : t.waiting ≠ s.waiting := by simp [hs, ht]
  obtain ⟨x, rfl⟩ := (frame_of_completed hform).wait (.inl hne)
  cases hform
  exact hpc

/-! ### One step -/

theorem State.Inv.begin {s : State} (h : s.Inv) : s.begin.Inv := ⟨h.mem, h.stack, h.pc, h.control⟩

/-- A fatal error of a machine that was not waiting sets HALTED and ERR together and leaves the rest (R90). -/
theorem State.Inv.halt {s : State} (h : s.Inv) (hw : s.waiting = false) (e : FatalError) : (s.halt e).Inv where
  mem := h.mem
  stack := h.stack
  pc := h.pc
  control := ⟨h.control.1, rfl, fun _ => hw⟩

theorem State.Inv.keyPhase {s : State} (h : s.Inv) : s.keyPhase.Inv := ⟨h.mem, h.stack, h.pc, h.control⟩

/-- The event moves PC past a waiting LD Vx, K, which stands at 0xFFE at most (R82). -/
theorem State.Inv.takeKey {s : State} (h : s.Inv) (hw : s.waiting = true) (event : Option Key) :
    (s.takeKey event).Inv := by
  cases event with
  | none => exact h
  | some k =>
    have hpc := s.advance_pc_toNat (h.pc.2 hw)
    rw [State.advance_pc] at hpc
    refine ⟨h.mem, h.stack, ⟨?_, fun hf => by cases hf⟩, h.control.1, h.control.2.1, fun _ => rfl⟩
    have hle := h.pc.2 hw
    exact hpc.le.trans (by omega)

/-- A completed instruction and the phases after it: DRAW is cleared by the display phase, and HALTED and ERR stay
clear. -/
theorem State.Inv.endCycle_of_completed {i : Instr} {s u : State} (h : s.Inv) (hf : s.Fetches)
    (hform : CompletedForm i s u) (hc : Completed i s u) : u.endCycle.Inv := by
  obtain ⟨hh, hw, hpc⟩ := hf
  obtain ⟨_, herr, _⟩ := h.control
  have hu : u.halted = false := hc.halted.trans hh
  have hmem : u.mem.wf = true := mem_wf_of_completed hform h.mem
  have hstack : u.StackInv := stackInv_of_completed hform h.stack hpc
  have hpcInv : u.PcInv :=
    ⟨pc_le_of_completed hform h.stack hpc, pc_le_of_waiting_of_completed hform hw hpc⟩
  have herr : u.halted = u.err.isSome := by rw [hc.halted, hc.err, herr]
  exact ⟨hmem, hstack, hpcInv, rfl, herr, fun ht => absurd (hu.symm.trans ht) (by decide)⟩

/-- Settles O22: by what one step can do. -/
theorem everyStepKeepsTheInvariant : Obligations.EveryStepKeepsTheInvariant := by
  unfold Obligations.EveryStepKeepsTheInvariant
  intro s t h hstep
  rcases step_cases s with ⟨_, hx⟩ | ⟨_, hw, hx⟩ | ⟨_, hw, _, hx⟩ | ⟨⟨_, hw, _⟩, _, hx⟩ |
    ⟨⟨_, hw, _⟩, _, e, _, _, hx⟩ | ⟨i, u, hn, hc, hx⟩ <;> rw [hx] at hstep <;> cases hstep
  case inl => exact h.begin
  case inr.inl => exact (h.begin.takeKey hw _).keyPhase
  case inr.inr.inl | inr.inr.inr.inl | inr.inr.inr.inr.inl => exact h.begin.halt hw _
  case inr.inr.inr.inr.inr =>
    exact h.begin.endCycle_of_completed hn.fetches
      (exec_completed_form hn.runs (raisedBy_none_of_goesOn hn.runs hn.goesOn)) hc

/-! ### Reset and load -/

theorem State.Inv.resetWith (keys0 : BitVec 16) : (State.resetWith keys0).Inv where
  mem := rfl
  stack := fun _ hj => absurd hj (Nat.not_lt_zero _)
  pc := ⟨by rw [State.resetWith_pc_toNat]; decide, fun hf => by cases hf⟩
  control := ⟨rfl, rfl, fun _ => rfl⟩

/-- Settles O23: the reset state with any snapshot, KEYS0 among them. -/
theorem resetMeetsTheInvariant : Obligations.ResetMeetsTheInvariant := by
  unfold Obligations.ResetMeetsTheInvariant
  exact ⟨State.Inv.resetWith, State.Inv.resetWith Config.keys0⟩

theorem load_of_length_gt {p : List Byte} (s : State) (h : p.length > 3584) :
    load p s = s.halt (.loadError p.length) := by
  simp [load, wellFormedProgram, h]

/-- A program that fits ends at 4095 at most, and an overlong one is not written at all (R231, R204). -/
theorem State.Inv.load {s : State} (h : s.Inv) (hw : s.waiting = false) (p : List Byte) : (load p s).Inv := by
  by_cases hp : p.length ≤ 3584
  · rw [load_of_length_le s hp]
    exact ⟨Memory.wf_writeRun h.mem (by simp; omega), h.stack, h.pc, h.control⟩
  · rw [load_of_length_gt s (by omega)]
    exact h.halt hw _

/-- Settles O24: load keeps the invariant that the reset state meets. -/
theorem loadedMachineMeetsTheInvariant : Obligations.LoadedMachineMeetsTheInvariant := by
  unfold Obligations.LoadedMachineMeetsTheInvariant
  exact fun p keys0 => (State.Inv.resetWith keys0).load rfl p

/-- Settles O25: what a run of bytes stored at 0x200 leaves at each address. -/
theorem loadPlacesTheProgramVerbatim : Obligations.LoadPlacesTheProgramVerbatim := by
  unfold Obligations.LoadPlacesTheProgramVerbatim
  intro p s hp
  refine ⟨_, load_of_length_le s hp, rfl, fun j hj => ?inside, fun a ha => ?outside⟩
  case inside =>
    rw [State.store_mem, progBase_eq, Memory.read_writeRun, if_pos ⟨by omega, by omega⟩, Nat.add_sub_cancel_left,
      List.getD_eq_getElem _ _ hj]
  case outside => exact Memory.read_writeRun_outside _ _ _ _ ha

/-- Settles O26: the length decides between the halted state and the store, which leaves HALTED and ERR alone. -/
theorem overlongProgramRaisesLoadError : Obligations.OverlongProgramRaisesLoadError := by
  unfold Obligations.OverlongProgramRaisesLoadError
  refine fun p s => ⟨fun h => load_of_length_gt s h, fun h => ?_⟩
  rw [load_of_length_le s (by omega)]
  exact ⟨rfl, rfl⟩

/-- The font ends at 0x04F. -/
theorem Memory.initial_above_font {a : Nat} (h : 0x50 ≤ a) : Memory.initial a = 0 :=
  List.getD_eq_default _ _ h

/-- Settles O28: each register by its definition, each glyph by evaluating the font table, and no glyph above it. -/
theorem resetLeavesTheDecidedValues : Obligations.ResetLeavesTheDecidedValues := by
  unfold Obligations.ResetLeavesTheDecidedValues
  intro keys0
  refine ⟨?v, rfl, rfl, ?stack, rfl, rfl, ?fb, rfl, rfl, rfl, rfl, rfl, rfl, ?glyphs, ?above⟩
  case v => simp [State.reg, State.resetWith]
  case stack => simp [State.resetWith]
  case fb => simp [State.resetWith, Framebuffer.pixel]
  case glyphs => simp only [State.resetWith, Memory.read_nil]; decide
  case above => exact fun a ha => Memory.initial_above_font ha

/-- Memory is 0 at 0x200 after reset, above the font (R35). -/
theorem fetchWord_resetWith (keys0 : BitVec 16) : (State.resetWith keys0).fetchWord = 0 := by
  have hzero : ∀ a, 0x50 ≤ a → (State.resetWith keys0).mem.read a = 0 := fun a ha => Memory.initial_above_font ha
  rw [State.fetchWord, hzero _ (by simp), hzero _ (by simp)]
  rfl

/-- Settles O29: the word fetched from the empty machine is rejected. -/
theorem emptyMachineRaisesDecodeErrorAt0x200 : Obligations.EmptyMachineRaisesDecodeErrorAt0x200 := by
  unfold Obligations.EmptyMachineRaisesDecodeErrorAt0x200
  intro keys0
  have hf : (State.resetWith keys0).Fetches := ⟨rfl, rfl, by simp⟩
  have hd : decodeWord (State.resetWith keys0).fetchWord = .error (.unrecognized 0) := by
    rw [fetchWord_resetWith]; decide
  refine ⟨_, step_of_reject hf hd, ?_, rfl, rfl⟩
  rw [fetchWord_resetWith]; rfl

end Sys2Proof.Machine
end

section
/-! The cycle (spec/40_step_cycle.md R80 to R93): each statement is read off what one step can do (`step_cases`) and
off what the three closing phases do to what execute left. -/

namespace Sys2Proof.Machine

/-! ### The kinds of cycle -/

/-- Settles O8: the execute phase raises or completes, and only a completed one is followed by the phases 6 to 8. -/
theorem stepRunsTheDecodedInstruction : Obligations.StepRunsTheDecodedInstruction := by
  unfold Obligations.StepRunsTheDecodedInstruction
  intro s i hf hd
  have hstep := step_of_decode hf hd
  rcases exec_cases i s.begin with ⟨e, _, hx⟩ | ⟨_, u, hx, _⟩ <;> rw [hx] at hstep
  · exact ⟨_, hx, (by simp), fun _ => hstep⟩
  · exact ⟨u, hx, fun h => by rw [hstep, finishCycle, h]; rfl, fun h => by rw [hstep, finishCycle, h]; rfl⟩

/-- Settles O9: the step of a halted machine only empties the outputs of the cycle before. -/
theorem haltedCycleDoesNothing : Obligations.HaltedCycleDoesNothing := by
  unfold Obligations.HaltedCycleDoesNothing
  exact fun s h => step_of_halted h

/-- Settles O12: of PC and PC + 1 the lower that lies above 4095 is the larger of PC and 4096. -/
theorem fetchAboveMemoryRaisesAddressError : Obligations.FetchAboveMemoryRaisesAddressError := by
  unfold Obligations.FetchAboveMemoryRaisesAddressError
  intro s hh hw hpc
  have haddr : (if s.pc.toNat > 0xFFF then s.pc.toNat else s.pc.toNat + 1) = max s.pc.toNat 4096 := by
    split <;> omega
  rw [haddr]
  exact step_of_far_pc hh hw hpc

/-- Settles O13: a word that no instruction decodes from is rejected, and FF FF is such a word. -/
theorem unrecognizedWordRaisesDecodeError : Obligations.UnrecognizedWordRaisesDecodeError := by
  unfold Obligations.UnrecognizedWordRaisesDecodeError
  refine fun s hf => ⟨fun hno => ?_, fun hhi hlo => ?_⟩
  · cases hd : decodeWord s.fetchWord with
    | ok i => exact absurd hd (hno i)
    | error e => exact step_of_reject hf hd
  · have hw : s.fetchWord = 0xFFFF := by rw [State.fetchWord, hhi, hlo]; decide
    have hd : decodeWord s.fetchWord = .error (.unrecognized 0xFFFF) := by rw [hw]; decide
    rw [step_of_reject hf hd, hw]
    rfl

/-- Settles O21: each kind of cycle answers a next state. -/
theorem everyStepAnswersANextState : Obligations.EveryStepAnswersANextState := by
  unfold Obligations.EveryStepAnswersANextState
  intro s
  rcases step_cases s with ⟨_, hx⟩ | ⟨_, _, hx⟩ | ⟨_, _, _, hx⟩ | ⟨_, _, hx⟩ | ⟨_, _, _, _, _, hx⟩ | ⟨_, _, _, _, hx⟩ <;>
    exact ⟨_, hx⟩

/-! ### How a cycle ends -/

/-- A normal cycle ends with the phases 6, 7 and 8 of the state its completed instruction left. -/
theorem NormalCycle.completed {s u : State} {i : Instr} (h : NormalCycle s i u) : Completed i s.begin u := by
  rcases exec_cases i s.begin with ⟨e, _, hx⟩ | ⟨_, t, hx, hc⟩ <;> rw [h.runs] at hx <;> cases hx
  · exact absurd h.goesOn (by simp)
  · exact hc

/-- What one step can do, by how it ends: halted before it, a wait cycle, a fatal error, or phases 6 to 8. -/
theorem step_ends {s t : State} (h : step s = .next t) :
    (s.halted = true ∧ t = s.begin) ∨
    (s.halted = false ∧ s.waiting = true ∧ t = s.waitCycle) ∨
    (s.halted = false ∧ s.waiting = false ∧ ∃ e, t = s.begin.halt e) ∨
    (s.halted = false ∧ s.waiting = false ∧ ∃ i u, NormalCycle s i u ∧ t = u.endCycle) := by
  rcases step_cases s with ⟨hh, hx⟩ | ⟨hh, hw, hx⟩ | ⟨hh, hw, _, hx⟩ | ⟨⟨hh, hw, _⟩, _, hx⟩ |
    ⟨⟨hh, hw, _⟩, _, e, _, _, hx⟩ | ⟨i, u, hn, _, hx⟩ <;> rw [hx] at h <;> cases h
  case inl => exact .inl ⟨hh, rfl⟩
  case inr.inl => exact .inr (.inl ⟨hh, hw, rfl⟩)
  case inr.inr.inl | inr.inr.inr.inl | inr.inr.inr.inr.inl => exact .inr (.inr (.inl ⟨hh, hw, _, rfl⟩))
  case inr.inr.inr.inr.inr =>
    exact .inr (.inr (.inr ⟨hn.fetches.1, hn.fetches.2.1, i, u, hn, rfl⟩))

/-- A wait cycle keeps all but V, PC, WAITING, KEYS and the inputs, and has no output (R82). -/
theorem State.waitCycle_frame (s : State) :
    s.waitCycle = { s with v := s.waitCycle.v, pc := s.waitCycle.pc, waiting := s.waitCycle.waiting,
                           keys := s.input.keysIn, out := [], inputs := s.inputs.tail, cycle := s.cycle + 1 } := by
  unfold State.waitCycle State.takeKey
  split <;> rfl

theorem State.waitCycle_halted (s : State) : s.waitCycle.halted = s.halted := by
  rw [s.waitCycle_frame]

/-- A cycle that is halted, waiting or ends in a fatal error leaves the timers alone, and its only output can be a
report. -/
theorem step_without_phases {s t : State} (h : step s = .next t)
    (hk : s.halted = true ∨ s.waiting = true ∨ t.halted = true) :
    t.dt = s.dt ∧ t.st = s.st ∧ (t.out = [] ∨ ∃ e, t.out = [.report e]) := by
  rcases step_ends h with ⟨_, rfl⟩ | ⟨_, _, rfl⟩ | ⟨_, _, e, rfl⟩ | ⟨hh, hw, i, u, hn, rfl⟩
  case inl => exact ⟨rfl, rfl, .inl rfl⟩
  case inr.inl => rw [s.waitCycle_frame]; exact ⟨rfl, rfl, .inl rfl⟩
  case inr.inr.inl => exact ⟨rfl, rfl, .inr ⟨e, rfl⟩⟩
  case inr.inr.inr =>
    have hu : u.endCycle.halted = false := hn.goesOn
    simp [hh, hw, hu] at hk

/-- Settles O14: the timer phase counts what execute left, and the other cycles have no timer phase. -/
theorem timersCountDownOncePerNormalCycle : Obligations.TimersCountDownOncePerNormalCycle := by
  unfold Obligations.TimersCountDownOncePerNormalCycle
  refine ⟨fun s u i h => ⟨_, h.step_eq, countDown_toNat u.dt, countDown_toNat u.st⟩, fun s t h hk => ?_⟩
  obtain ⟨hdt, hst, _⟩ := step_without_phases h hk
  exact ⟨hdt, hst⟩

/-! ### Outputs -/

/-- The outputs of the three closing phases, after those of execute (R87, R88, D25). -/
theorem State.endCycle_out (u : State) :
    u.endCycle.out = u.out ++ beepOf u.st ++ (if u.draw then [.update u.fb] else []) := rfl

/-- Execute sets DRAW exactly for DRW (R21, R151). -/
theorem draw_iff_of_completed {i : Instr} {s u : State} (hform : CompletedForm i s u) (hs : s.draw = false) :
    u.draw = true ↔ ∃ x y n, i = .drw x y n := by
  constructor
  · intro hu
    exact (frame_of_completed hform).draw (by simp [hs, hu])
  · rintro ⟨x, y, n, rfl⟩
    cases hform
    rfl

theorem NormalCycle.form {s u : State} {i : Instr} (h : NormalCycle s i u) : CompletedForm i s.begin u :=
  exec_completed_form h.runs (raisedBy_none_of_goesOn h.runs h.goesOn)

/-- All the outputs of a normal cycle, in order (R91, D25). -/
theorem NormalCycle.out_eq {s u : State} {i : Instr} (h : NormalCycle s i u) :
    u.endCycle.out = (if i = .cls then [.clear] else []) ++ beepOf u.st ++ (if u.draw then [.update u.fb] else []) := by
  rw [State.endCycle_out, h.completed.out]
  rfl

/-- Settles O18: the clear of execute, the beep of the timer phase, the update of the display phase. -/
theorem outputsComeInOrder : Obligations.OutputsComeInOrder := by
  unfold Obligations.OutputsComeInOrder
  intro s u i h hs
  have hdraw := draw_iff_of_completed h.form hs
  refine ⟨_, h.step_eq, h.out_eq.trans (congrArg₂ _ (congrArg₂ _ ?clear rfl) ?update)⟩
  case clear =>
    split
    next hi => split <;> [rfl; exact absurd hi ‹_›]
    next hi => split <;> [exact absurd rfl hi; rfl]
  case update =>
    split
    next hu => obtain ⟨x, y, n, rfl⟩ := hdraw.1 hu; rfl
    next hu => split <;> [exact absurd (hdraw.2 ⟨_, _, _, rfl⟩) hu; rfl]

/-- Settles O15: only the timer phase beeps, and a cycle without it has no output but a report. -/
theorem beepExactlyWhenSoundTimerReachesZero : Obligations.BeepExactlyWhenSoundTimerReachesZero := by
  unfold Obligations.BeepExactlyWhenSoundTimerReachesZero
  refine ⟨fun s u i h => ⟨_, h.step_eq, ?_⟩, fun s t h hk => ?_⟩
  · have hclear : (if i = .cls then [Output.clear] else []).count .beep = 0 := by split <;> rfl
    have hupdate : (if u.draw then [Output.update u.fb] else []).count .beep = 0 := by split <;> simp
    rw [h.out_eq, List.count_append, List.count_append, hclear, hupdate, beepOf]
    split <;> rfl
  · obtain ⟨_, _, hout | ⟨e, hout⟩⟩ := step_without_phases h hk <;> simp [hout]

/-- Settles O16: DRAW after execute says whether DRW ran, and the display phase sends its update by DRAW. -/
theorem displayUpdateExactlyAfterDrw : Obligations.DisplayUpdateExactlyAfterDrw := by
  unfold Obligations.DisplayUpdateExactlyAfterDrw
  intro s u i h hs
  have hdraw := draw_iff_of_completed h.form hs
  have hbeep : updatesOf (beepOf u.st) = [] := by unfold beepOf; split <;> rfl
  refine ⟨hdraw, _, h.step_eq, rfl, rfl, fun hi => ?clear, ?updates⟩
  case clear => rw [h.out_eq, hi]; simp
  case updates =>
    have hsplit : updatesOf u.endCycle.out = if u.draw then [.update u.fb] else [] := by
      rw [h.out_eq, updatesOf, List.filter_append, List.filter_append, ← updatesOf, ← updatesOf, ← updatesOf, hbeep]
      split <;> split <;> rfl
    rw [hsplit]
    split
    next hu => obtain ⟨x, y, n, rfl⟩ := hdraw.1 hu; rfl
    next hu => split <;> [exact absurd (hdraw.2 ⟨_, _, _, rfl⟩) hu; rfl]

/-! ### Keys -/

theorem Completed.input {i : Instr} {s u : State} (h : Completed i s u) : u.input = s.input :=
  State.input_congr s u h.inputs h.cycle

/-- Settles O17: both kinds of cycle that end with the key refresh use the inputs the cycle began with. -/
theorem keysAreRefreshedOncePerCycle : Obligations.KeysAreRefreshedOncePerCycle := by
  unfold Obligations.KeysAreRefreshedOncePerCycle
  intro s t h
  rcases step_ends h with ⟨hh, rfl⟩ | ⟨hh, _, rfl⟩ | ⟨_, _, e, rfl⟩ | ⟨hh, _, i, u, hn, rfl⟩
  case inl => exact ⟨fun hf => absurd (hh.symm.trans hf) (by decide), fun _ => rfl⟩
  case inr.inl =>
    rw [s.waitCycle_frame]
    exact ⟨fun _ _ => rfl, fun hf => by simp [hh] at hf⟩
  case inr.inr.inl => exact ⟨fun _ hf => absurd hf (by simp), fun _ => rfl⟩
  case inr.inr.inr =>
    have hu : u.endCycle.halted = false := hn.goesOn
    have hkeys : u.endCycle.keys = u.input.keysIn := rfl
    refine ⟨fun _ _ => ?_, fun hf => by simp [hh, hu] at hf⟩
    rw [hkeys, hn.completed.input, State.input_begin]

/-! ### Fatal errors -/

/-- Settles O19: only a raised error halts a cycle, and it leaves the state the cycle began with. -/
theorem fatalErrorsArePrecise : Obligations.FatalErrorsArePrecise := by
  unfold Obligations.FatalErrorsArePrecise
  intro s t hs h ht
  rcases step_ends h with ⟨hh, _⟩ | ⟨_, _, rfl⟩ | ⟨_, _, e, rfl⟩ | ⟨_, _, i, u, hn, rfl⟩
  case inl => exact absurd (hs.symm.trans hh) (by decide)
  case inr.inl => rw [s.waitCycle_halted, hs] at ht; cases ht
  case inr.inr.inl => exact ⟨e, rfl⟩
  case inr.inr.inr => exact absurd (hn.goesOn.symm.trans ht) (by decide)

/-- Settles O20: the fetch and the decoder raise their own errors, and an instruction raises the one its rule names. -/
theorem errorsComeOnlyFromTheirCauses : Obligations.ErrorsComeOnlyFromTheirCauses := by
  unfold Obligations.ErrorsComeOnlyFromTheirCauses
  intro s t e hs h ht he
  rcases step_cases s with ⟨hh, hx⟩ | ⟨_, _, hx⟩ | ⟨_, _, hpc, hx⟩ | ⟨hf, ⟨r, hd⟩, hx⟩ |
    ⟨hf, i, e', hd, hr, hx⟩ | ⟨i, u, hn, _, hx⟩ <;> rw [hx] at h <;> cases h
  case inl => exact absurd (hs.symm.trans hh) (by decide)
  case inr.inl => rw [s.waitCycle_halted, hs] at ht; cases ht
  case inr.inr.inl => cases he; exact ⟨rfl, .inl ⟨hpc, rfl⟩⟩
  case inr.inr.inr.inl => cases he; exact ⟨hf, rfl, rfl, fun i hi => by rw [hd] at hi; cases hi⟩
  case inr.inr.inr.inr.inl =>
    cases he
    cases i <;> simp only [raisedBy] at hr
    case ret => split at hr <;> cases hr; exact ⟨hf, ‹_›, ‹_›, hd⟩
    case call nnn => split at hr <;> cases hr; exact ⟨hf, ‹_›, ‹_›, nnn, hd⟩
    case skp x => split at hr <;> cases hr; exact ⟨hf, rfl, ‹_›, x, rfl, .inl hd⟩
    case sknp x => split at hr <;> cases hr; exact ⟨hf, rfl, ‹_›, x, rfl, .inr hd⟩
    case drw | ldBVx | storeRegs | loadRegs =>
      split at hr <;> cases hr
      rename_i hout
      simp only [State.begin_i] at hout
      exact ⟨rfl, .inr ⟨hf, _, _, _, hd, rfl, by omega, by rw [State.address]; omega, rfl⟩⟩
    all_goals cases hr
  case inr.inr.inr.inr.inr => exact absurd (hn.goesOn.symm.trans ht) (by decide)

end Sys2Proof.Machine
end

section
/-! The keypad (spec/46_keypad.md; 40_step_cycle.md R82): the key skips, the entry cycle of LD Vx, K, and the wait. -/

namespace Sys2Proof.Machine

/-! ### SKP and SKNP -/

theorem exec_skp (x : Reg) (s : State) :
    exec (.skp x) s = guardKey (s.reg x) s (s.skipIf (s.keyDown (s.reg x).toNat)) := rfl

theorem exec_sknp (x : Reg) (s : State) :
    exec (.sknp x) s = guardKey (s.reg x) s (s.skipIf (!s.keyDown (s.reg x).toNat)) := rfl

/-- Settles O53: the key check is the shared one, and the skip is on the latched bit or on its complement. -/
theorem keySkipsReadTheLatch : Obligations.KeySkipsReadTheLatch := by
  unfold Obligations.KeySkipsReadTheLatch
  refine fun x s => ⟨fun h => ⟨?skp, ?sknp⟩, fun h i hi => ?error⟩
  case skp => rw [exec_skp, guardKey_inside h, s.skipIf_eq_of_iff Iff.rfl]; rfl
  case sknp => rw [exec_sknp, guardKey_inside h, s.skipIf_eq_of_iff (Bool.not_eq_true' _).to_iff]; rfl
  case error =>
    rcases hi with rfl | rfl
    · exact guardKey_outside h
    · exact guardKey_outside h

/-! ### LD Vx, K -/

theorem exec_ldVxK (x : Reg) (s : State) : exec (.ldVxK x) s = .next { s with waiting := true, waitX := x } := rfl

/-- Settles O54: the entry cycle is a normal cycle, so its timers count and its keys are refreshed. -/
theorem ldVxKStartsTheWait : Obligations.LdVxKStartsTheWait := by
  unfold Obligations.LdVxKStartsTheWait
  refine fun x s => ⟨exec_ldVxK x s, fun hf hd => ?_⟩
  have hn : NormalCycle s (.ldVxK x) { s.begin with waiting := true, waitX := x } :=
    ⟨hf, hd, exec_ldVxK x s.begin, hf.1⟩
  exact ⟨_, hn.step_eq, rfl, rfl, rfl, rfl, countDown_toNat s.dt, countDown_toNat s.st, rfl⟩

/-! ### The wait -/

theorem keyByte_toNat (k : Key) : (keyByte k).toNat = k.val := by
  rw [keyByte, BitVec.toNat_ofNat]
  omega

theorem State.waitCycle_of_none {s : State} (h : s.input.keyEvent = none) :
    s.waitCycle = { s with keys := s.input.keysIn, out := [], inputs := s.inputs.tail, cycle := s.cycle + 1 } := by
  rw [State.waitCycle, h]; rfl

theorem State.waitCycle_of_some {s : State} {k : Key} (h : s.input.keyEvent = some k) :
    s.waitCycle = { s with v := (s.setReg s.waitX (keyByte k)).v, pc := s.pc + 2, waiting := false,
                           keys := s.input.keysIn, out := [], inputs := s.inputs.tail, cycle := s.cycle + 1 } := by
  rw [State.waitCycle, h]; rfl

/-- Settles O10: the two wait cycles, one for each value of the event. -/
theorem waitCycleOnlyTakesTheKey : Obligations.WaitCycleOnlyTakesTheKey := by
  unfold Obligations.WaitCycleOnlyTakesTheKey
  refine fun s hh hw => ⟨fun h => ?idle, fun k h => ?event⟩
  case idle => rw [step_of_waiting hh hw, s.waitCycle_of_none h]
  case event =>
    refine ⟨_, (step_of_waiting hh hw).trans (congrArg _ (s.waitCycle_of_some h)), rfl, ?key, fun r hr => ?others⟩
    case key => exact (congrArg _ (s.reg_setReg_self s.waitX (keyByte k))).trans (keyByte_toNat k)
    case others => exact s.reg_setReg_ne s.waitX r (keyByte k) hr

/-- Settles O11: by induction on the idle cycles, each of which keeps all but KEYS and the supply of inputs. -/
theorem awaitKeyLastsUntilTheEvent : Obligations.AwaitKeyLastsUntilTheEvent := by
  unfold Obligations.AwaitKeyLastsUntilTheEvent
  intro s idle last rest k hh hw hidle hlast hin
  induction idle generalizing s with
  | nil =>
    have hinput : s.input = last := by rw [State.input, hin]; rfl
    obtain ⟨t, hstep, ht, hkey, hothers⟩ := (waitCycleOnlyTakesTheKey s hh hw).2 k (by rw [hinput, hlast])
    refine ⟨t, run_succ_of_next (M := core) hstep, ?_, hkey, hothers⟩
    rw [hinput, hin] at ht
    exact ht
  | cons c idle ih =>
    have hinput : s.input = c := by rw [State.input, hin]; rfl
    have hc : c.keyEvent = none := hidle c List.mem_cons_self
    have hstep := (waitCycleOnlyTakesTheKey s hh hw).1 (by rw [hinput, hc])
    rw [hin] at hstep
    have hidle' : ∀ d ∈ idle, d.keyEvent = none := fun d hd => hidle d (List.mem_cons_of_mem c hd)
    obtain ⟨t, hrun, ht, hkey, hothers⟩ :=
      ih { s with keys := s.input.keysIn, out := [], inputs := idle ++ last :: rest, cycle := s.cycle + 1 }
        hh hw hidle' rfl
    refine ⟨t, (run_succ_of_next (M := core) hstep).trans hrun, ?_, hkey, hothers⟩
    rw [ht, List.length_cons, Nat.add_assoc, Nat.add_comm 1]

end Sys2Proof.Machine
end

section
/-! JMP V0, CALL and RET (spec/41_control_flow.md R100, R102, R103). -/

namespace Sys2Proof.Machine

theorem exec_jmpV0 (nnn : Imm12) (s : State) :
    exec (.jmpV0 nnn) s = .next (s.setPc (zext16 nnn + byteToWord (s.reg 0))) := rfl

/-- Settles O37: the sum of 12 bits and 8 bits does not wrap at 16. -/
theorem jmpV0PutsTheFullSumInPc : Obligations.JmpV0PutsTheFullSumInPc := by
  unfold Obligations.JmpV0PutsTheFullSumInPc
  exact fun nnn s => ⟨_, exec_jmpV0 nnn s, rfl, zext16_add_byteToWord_toNat nnn (s.reg 0)⟩

theorem exec_call_of_room (nnn : Imm12) {s : State} (room : s.sp.val < 16) :
    exec (.call nnn) s = .next ((s.push s.pc room).setPc (zext16 nnn)) := dif_pos room

theorem exec_call_of_full (nnn : Imm12) {s : State} (full : s.sp.val = 16) :
    exec (.call nnn) s = .next (s.halt (.stackOverflow 16)) := by
  have hsp : s.sp = 16 := Fin.ext full
  exact (dif_neg (by omega)).trans (by rw [raise_eq, hsp])

/-- Settles O38: the push writes the entry at SP, which is the CALL's own address. -/
theorem callPushesItsOwnAddress : Obligations.CallPushesItsOwnAddress := by
  unfold Obligations.CallPushesItsOwnAddress
  refine fun nnn s => ⟨fun room => ?push, exec_call_of_full nnn⟩
  exact ⟨_, exec_call_of_room nnn room, rfl, zext16_toNat nnn, rfl, s.push_stack_getElem s.pc room⟩

/-- The entry a RET takes, by the number of entries in use (R16). -/
theorem exec_ret_of_used {s : State} (j : Fin 16) (hj : s.sp.val = j.val + 1) :
    exec .ret s = .next (s.pop.setPc (s.stack[j] + 2)) := by
  have used : 0 < s.sp.val := by omega
  have htop : s.top used = s.stack[j] := by simp [State.top, hj]
  exact (dif_pos used).trans (by rw [htop])

theorem exec_ret_of_empty {s : State} (empty : s.sp.val = 0) :
    exec .ret s = .next (s.halt (.stackUnderflow 0)) := by
  have hsp : s.sp = 0 := Fin.ext empty
  exact (dif_neg (by omega)).trans (by rw [raise_eq, hsp])

/-- Settles O39: the popped entry is the last in use, and with the stack invariant its sum with 2 does not wrap. -/
theorem retPopsTheCallAddressPlusTwo : Obligations.RetPopsTheCallAddressPlusTwo := by
  unfold Obligations.RetPopsTheCallAddressPlusTwo
  refine fun s => ⟨fun j hj => ⟨_, exec_ret_of_used j hj, rfl, ?sp, rfl, fun hs => ?pc⟩, exec_ret_of_empty⟩
  case sp =>
    have hsp : s.sp.val - 1 = j.val := by omega
    exact hsp
  case pc =>
    have hentry := hs j (by omega)
    rw [State.setPc_pc, BitVec.toNat_add]
    exact (Nat.mod_le _ _).trans (Nat.add_le_add_right hentry 2)

/-- Settles O40: the entry RET takes is the one CALL pushed, and the entries below it were not written. -/
theorem retAfterCallResumesAfterTheCall : Obligations.RetAfterCallResumesAfterTheCall := by
  unfold Obligations.RetAfterCallResumesAfterTheCall
  intro nnn s u w room hcall hsp hstack
  rw [exec_call_of_room nnn room] at hcall
  cases hcall
  let j : Fin 16 := ⟨s.sp.val, room⟩
  have hj : w.sp.val = j.val + 1 := congrArg Fin.val hsp
  have hentry : ∀ k : Fin 16, w.stack[k] = if k.val = s.sp.val then s.pc else s.stack[k] := fun k => by
    rw [hstack]; exact s.push_stack_getElem s.pc room k
  refine ⟨_, exec_ret_of_used j hj, ?pc, ?sp, fun k hk => ?entries⟩
  case pc => rw [State.setPc_pc, hentry j, if_pos rfl]
  case sp => exact Fin.ext (by simp [hj, j])
  case entries => exact (hentry k).trans (if_neg hk.ne)

end Sys2Proof.Machine
end

section
/-! The remaining register results: RND, the copies and the logic group, SUBN, the timer and index moves, CLS
(spec/43_immediate.md R123, 44_alu.md, 45_display.md R150, 47_timer_index_memory.md). -/

namespace Sys2Proof.Machine

/-- An instruction that answers one register write and the advance: the form several statements share. -/
theorem exists_next_of_setReg {i : Instr} {s : State} {x : Reg} {b : Byte}
    (hexec : exec i s = .next (s.setReg x b).advance) :
    ∃ t, exec i s = .next t ∧ t = { s with v := t.v, pc := s.pc + 2 } ∧ t.reg x = b ∧
      ∀ r, r ≠ x → t.reg r = s.reg r :=
  ⟨_, hexec, s.setReg_advance_frame x b⟩

theorem exec_rnd (x : Reg) (kk : Byte) (s : State) :
    exec (.rnd x kk) s = .next (s.setReg x (s.input.rnd &&& kk)).advance := rfl

/-- Settles O44: the byte is that of the cycle's input, which is the first of the schedule when there is one. -/
theorem rndMasksTheFreeByte : Obligations.RndMasksTheFreeByte := by
  unfold Obligations.RndMasksTheFreeByte
  refine fun x kk s => ⟨exists_next_of_setReg (exec_rnd x kk s), fun b keysIn event rest => ?_⟩
  obtain ⟨t, hexec, _, hresult, _⟩ :=
    exists_next_of_setReg (exec_rnd x kk { s with inputs := ⟨keysIn, event, b⟩ :: rest })
  exact ⟨t, hexec, hresult⟩

theorem exec_ldReg (x y : Reg) (s : State) : exec (.ldReg x y) s = .next (s.setReg x (s.reg y)).advance := rfl

theorem exec_orReg (x y : Reg) (s : State) :
    exec (.orReg x y) s = .next (s.setReg x (s.reg x ||| s.reg y)).advance := rfl

theorem exec_andReg (x y : Reg) (s : State) :
    exec (.andReg x y) s = .next (s.setReg x (s.reg x &&& s.reg y)).advance := rfl

theorem exec_xorReg (x y : Reg) (s : State) :
    exec (.xorReg x y) s = .next (s.setReg x (s.reg x ^^^ s.reg y)).advance := rfl

/-- Settles O45: each of the four writes V[x] alone. -/
theorem logicAndCopyLeaveVfAlone : Obligations.LogicAndCopyLeaveVfAlone := by
  unfold Obligations.LogicAndCopyLeaveVfAlone
  rintro x y s i result (⟨rfl, rfl⟩ | ⟨rfl, rfl⟩ | ⟨rfl, rfl⟩ | ⟨rfl, rfl⟩)
  · exact exists_next_of_setReg (exec_ldReg x y s)
  · exact exists_next_of_setReg (exec_orReg x y s)
  · exact exists_next_of_setReg (exec_andReg x y s)
  · exact exists_next_of_setReg (exec_xorReg x y s)

theorem exec_subnReg (x y : Reg) (s : State) : exec (.subnReg x y) s =
    .next (s.setResultAndFlag x (s.reg y - s.reg x) (noBorrow (s.reg y) (s.reg x))).advance := rfl

/-- Settles O48: SUB with its operands exchanged. -/
theorem subnLeavesReverseDifference : Obligations.SubnLeavesReverseDifference := by
  unfold Obligations.SubnLeavesReverseDifference
  intro x y s
  exact exists_next_of_setResultAndFlag (exec_subnReg x y s) (byte_sub_toNat _ _) (flagByte_noBorrow_toNat _ _)

theorem exec_ldVxDt (x : Reg) (s : State) : exec (.ldVxDt x) s = .next (s.setReg x s.dt).advance := rfl

theorem exec_ldDtVx (x : Reg) (s : State) :
    exec (.ldDtVx x) s = .next { s with dt := s.reg x, pc := s.pc + 2 } := rfl

theorem exec_ldStVx (x : Reg) (s : State) :
    exec (.ldStVx x) s = .next { s with st := s.reg x, pc := s.pc + 2 } := rfl

theorem exec_addIVx (x : Reg) (s : State) :
    exec (.addIVx x) s = .next (s.setI (s.i + byteToWord (s.reg x))).advance := rfl

/-- Settles O55: three moves as they stand, and a sum of 16-bit words, which is taken modulo 65536. -/
theorem timerAndIndexMoves : Obligations.TimerAndIndexMoves := by
  unfold Obligations.TimerAndIndexMoves
  refine fun x s => ⟨exists_next_of_setReg (exec_ldVxDt x s), exec_ldDtVx x s, exec_ldStVx x s,
    ⟨_, exec_addIVx x s, s.setI_advance_frame _, ?sum⟩⟩
  case sum => rw [State.advance_i, State.setI_i, BitVec.toNat_add, byteToWord_toNat]

theorem exec_cls (s : State) :
    exec .cls s = .next { s with fb := 0, pc := s.pc + 2, out := s.out ++ [.clear] } := rfl

theorem Framebuffer.pixel_zero (row col : Nat) : Framebuffer.pixel 0 row col = false := BitVec.getLsbD_zero

/-- Settles O50: CLS writes the framebuffer of no lit pixel and sends its clear. -/
theorem clsClearsEveryPixel : Obligations.ClsClearsEveryPixel := by
  unfold Obligations.ClsClearsEveryPixel
  exact fun s => ⟨_, exec_cls s, rfl, fun row _ col _ => Framebuffer.pixel_zero row col⟩

end Sys2Proof.Machine
end

section
/-! DRW (spec/45_display.md R151) in terms of the pixels its sprite falls on: which it inverts, when it collides, and
that drawing twice inverts them back. -/

namespace Sys2Proof.Machine

/-- A framebuffer is known by its 32 x 64 pixels (R19). -/
theorem Framebuffer.ext_pixel {a b : Framebuffer}
    (h : ∀ row < 32, ∀ col < 64, a.pixel row col = b.pixel row col) : a = b := by
  apply BitVec.eq_of_getLsbD_eq
  intro k hk
  have hpixel := h (k / 64) (by omega) (k % 64) (Nat.mod_lt _ (by decide))
  simpa only [Framebuffer.pixel, pixelIndex, columns_eq, Nat.div_add_mod'] using hpixel

/-- A 1 bit of DRW's sprite falls on the pixel (row, col), the coordinates wrapping on both axes (R151). -/
def State.spriteCovers (s : State) (x y : Reg) (n : Nibble) (row col : Nat) : Prop :=
  ∃ yl < n.toNat, ∃ xl < 8, (s.mem.read (s.i.toNat + yl)).getLsbD (7 - xl) = true ∧
    ((s.reg x).toNat + xl) % 64 = col ∧ ((s.reg y).toNat + yl) % 32 = row

theorem State.spriteBytes_length_le (s : State) (n : Nibble) : (s.mem.readRun (s.address 0) n.toNat).length ≤ 32 := by
  have := n.isLt
  rw [Memory.readRun_length]
  omega

theorem State.spriteBytes_getD (s : State) {n j : Nat} (hj : j < n) :
    (s.mem.readRun (s.address 0) n).getD j 0 = s.mem.read (s.i.toNat + j) := by
  rw [List.getD_eq_getElem _ _ (by rwa [Memory.readRun_length]), Memory.readRun_getElem]
  rfl

/-- DRW inverts the pixels its sprite covers, and no other. -/
theorem State.drawn_pixel_ne_iff (s : State) (x y : Reg) (n : Nibble) {row col : Nat} (hrow : row < 32)
    (hcol : col < 64) : (s.drawn x y n).fb.pixel row col ≠ s.fb.pixel row col ↔ s.spriteCovers x y n row col := by
  have hn := n.isLt
  rw [State.drawn, drawSprite_pixel _ _ _ _ (s.spriteBytes_length_le n) hrow hcol, ← Bool.xor_iff_ne, Bool.xor_comm,
    ← Bool.xor_assoc, Bool.xor_self, Bool.false_xor, Memory.readRun_length, Bool.and_eq_true, Bool.and_eq_true,
    decide_eq_true_eq, decide_eq_true_eq]
  constructor
  · rintro ⟨⟨hyl, hxl⟩, hbit⟩
    rw [s.spriteBytes_getD hyl] at hbit
    exact ⟨_, hyl, _, hxl, hbit, (spriteColumn_eq_iff (by omega) hcol).1 rfl, (spriteRow_eq_iff (by omega) hrow).1 rfl⟩
  · rintro ⟨yl, hyl, xl, hxl, hbit, hx, hy⟩
    rw [(spriteColumn_eq_iff (by omega) hcol).2 hx, (spriteRow_eq_iff (by omega) hrow).2 hy, s.spriteBytes_getD hyl]
    exact ⟨⟨hyl, hxl⟩, hbit⟩

/-- DRW collides exactly when a pixel goes from on to off. -/
theorem State.drawn_hit_iff (s : State) (x y : Reg) (n : Nibble) : (s.drawn x y n).hit = true ↔
    ∃ row < 32, ∃ col < 64, s.fb.pixel row col = true ∧ (s.drawn x y n).fb.pixel row col = false := by
  have hcovers : ∀ row < 32, ∀ col < 64, s.fb.pixel row col = true →
      ((s.drawn x y n).fb.pixel row col = false ↔ s.spriteCovers x y n row col) := fun row hrow col hcol hon => by
    rw [← s.drawn_pixel_ne_iff x y n hrow hcol, hon, ne_eq, Bool.not_eq_true]
  rw [State.drawn, drawSprite_hit _ _ _ _ (s.spriteBytes_length_le n), ← State.drawn, Memory.readRun_length]
  constructor
  · rintro ⟨yl, hyl, xl, hxl, hbit, hon⟩
    rw [s.spriteBytes_getD hyl] at hbit
    have hrow := Nat.mod_lt ((s.reg y).toNat + yl) (show 32 > 0 by decide)
    have hcol := Nat.mod_lt ((s.reg x).toNat + xl) (show 64 > 0 by decide)
    exact ⟨_, hrow, _, hcol, hon, (hcovers _ hrow _ hcol hon).2 ⟨yl, hyl, xl, hxl, hbit, rfl, rfl⟩⟩
  · rintro ⟨row, hrow, col, hcol, hon, hoff⟩
    obtain ⟨yl, hyl, xl, hxl, hbit, rfl, rfl⟩ := (hcovers row hrow col hcol hon).1 hoff
    exact ⟨yl, hyl, xl, hxl, by rwa [s.spriteBytes_getD hyl], hon⟩

/-- DRW inside MEM, or of no bytes, completes (R43, R151). -/
theorem exec_drw_of_inside (x y : Reg) {n : Nibble} {s : State} (h : n.toNat = 0 ∨ s.i.toNat + n.toNat - 1 ≤ 4095) :
    exec (.drw x y n) s = .next ({ s with fb := (s.drawn x y n).fb, draw := true }.setReg vf
      (flagByte (s.drawn x y n).hit)).advance := by
  refine guardRange_inside ?_
  rw [State.address, memSize_eq]
  omega

theorem flagByte_eq_one_iff (f : Bool) : flagByte f = 1 ↔ f = true := by
  cases f <;> decide

/-- Settles O51: the sprite's cover decides which pixels change, and a change from on to off is a collision. -/
theorem drwInvertsExactlyTheSpritePixels : Obligations.DrwInvertsExactlyTheSpritePixels := by
  unfold Obligations.DrwInvertsExactlyTheSpritePixels
  intro x y n s h
  refine ⟨_, exec_drw_of_inside x y h, rfl, fun row hrow col hcol => s.drawn_pixel_ne_iff x y n hrow hcol,
    fun hoff => ?hit, fun hstay => ?noHit, fun r hr => ?others⟩
  case hit =>
    have hhit : (s.drawn x y n).hit = true := (s.drawn_hit_iff x y n).2 hoff
    rw [State.reg_advance, State.reg_setReg_self, hhit]
    rfl
  case noHit =>
    have hhit : (s.drawn x y n).hit = false := by
      rw [← Bool.not_eq_true, s.drawn_hit_iff]
      rintro ⟨row, hrow, col, hcol, hon, hoff⟩
      exact absurd (hoff.symm.trans (hstay row hrow col hcol hon)) (by decide)
    rw [State.reg_advance, State.reg_setReg_self, hhit]
    rfl
  case others =>
    rw [State.reg_advance, State.reg_setReg_ne _ _ _ _ hr]
    rfl

/-- A sprite drawn again inverts the same pixels back (R151). -/
theorem drawSprite_fb_twice (cx cy : Nat) {bytes : List Byte} (fb : Framebuffer) (hlen : bytes.length ≤ 32) :
    (drawSprite cx cy bytes (drawSprite cx cy bytes fb).fb).fb = fb := by
  apply Framebuffer.ext_pixel
  intro row hrow col hcol
  rw [drawSprite_pixel _ _ _ _ hlen hrow hcol, drawSprite_pixel _ _ _ _ hlen hrow hcol, Bool.xor_assoc, Bool.xor_self,
    Bool.xor_false]

/-- Settles O52: the second draw inverts the same pixels back, so what it turns off is what the first turned on. -/
theorem drawingTwiceRestoresTheFramebuffer : Obligations.DrawingTwiceRestoresTheFramebuffer := by
  unfold Obligations.DrawingTwiceRestoresTheFramebuffer
  intro x y n s u w h hu hfb hmem hi hx hy
  rw [exec_drw_of_inside x y h] at hu
  cases hu
  have hfb : w.fb = (s.drawn x y n).fb := hfb
  have hback : (w.drawn x y n).fb = s.fb := by
    simp only [State.drawn, State.address, hfb, hmem, hi, hx, hy]
    exact drawSprite_fb_twice _ _ _ (s.spriteBytes_length_le n)
  refine ⟨_, exec_drw_of_inside x y (by rwa [hi]), hback, ?_⟩
  rw [State.reg_advance, State.reg_setReg_self, flagByte_eq_one_iff, w.drawn_hit_iff, hback, hfb]
  simp only [and_comm]
  rfl

end Sys2Proof.Machine
end

section
/-! LD B, LD [I] and LD Vx, [I] (spec/47_timer_index_memory.md R175 to R177; 20_memory.md R43, R50): the range check, the
bytes stored and loaded, and what the next fetch sees of a store. -/

namespace Sys2Proof.Machine

/-! ### Inside MEM and outside it -/

theorem exec_ldBVx_of_inside (x : Reg) {s : State} (h : s.i.toNat + 2 ≤ 4095) :
    exec (.ldBVx x) s = .next (s.store (s.address 0) (bcdDigits (s.reg x))).advance :=
  guardRange_inside (.inr (Nat.succ_le_succ h))

theorem exec_storeRegs_of_inside {x : Reg} {s : State} (h : s.i.toNat + x.val ≤ 4095) :
    exec (.storeRegs x) s = .next (s.store (s.address 0) (s.regsUpTo x)).advance :=
  guardRange_inside (.inr (Nat.succ_le_succ h))

theorem exec_loadRegs_of_inside {x : Reg} {s : State} (h : s.i.toNat + x.val ≤ 4095) :
    exec (.loadRegs x) s = .next (s.loadRun (s.address 0) x).advance :=
  guardRange_inside (.inr (Nat.succ_le_succ h))

/-- Settles O59: each of the four checks its whole range, the same check, before it does anything. -/
theorem rangeAboveMemoryRaisesAddressError : Obligations.RangeAboveMemoryRaisesAddressError := by
  unfold Obligations.RangeAboveMemoryRaisesAddressError
  have houtside : ∀ {s done : State} {len : Nat}, len ≠ 0 → s.i.toNat + len > 4096 →
      guardRange (s.address 0) len s done = .next (s.halt (.addressError s.pc (max s.i.toNat 4096))) :=
    fun hlen h => guardRange_outside hlen h
  rintro x y n s i (⟨rfl, hn, h⟩ | ⟨rfl, h⟩ | ⟨rfl, h⟩ | ⟨rfl, h⟩)
  · exact houtside hn.ne' (by omega)
  · exact houtside (len := 3) (by decide) (by omega)
  · exact houtside (len := x.val + 1) (Nat.succ_ne_zero _) (by omega)
  · exact houtside (len := x.val + 1) (Nat.succ_ne_zero _) (by omega)

/-! ### What a store leaves at each address -/

/-- A byte inside the stored range (R45). -/
theorem State.byteUnderStore_inside (s : State) {len j : Nat} (stored : Nat → Byte) (h : j < len) :
    s.byteUnderStore len stored (s.i.toNat + j) = stored j := by
  rw [State.byteUnderStore, if_pos ⟨by omega, by omega⟩, Nat.add_sub_cancel_left]

/-- A byte outside the stored range (R50). -/
theorem State.byteUnderStore_outside (s : State) {len a : Nat} (stored : Nat → Byte)
    (h : a < s.i.toNat ∨ s.i.toNat + len ≤ a) : s.byteUnderStore len stored a = s.mem.read a :=
  if_neg (by omega)

/-- Only the stored bytes of the range matter. -/
theorem State.byteUnderStore_congr (s : State) {len : Nat} {f g : Nat → Byte} (h : ∀ j < len, f j = g j) (a : Nat) :
    s.byteUnderStore len f a = s.byteUnderStore len g a := by
  unfold State.byteUnderStore
  split
  next hin => exact h _ (by omega)
  next => rfl

/-- LD B stores the digits of V[x], hundreds first: the j-th is that of 10 ^ (2 - j) (R175). -/
theorem bcdDigits_getD (b : Byte) {j : Nat} (h : j < 3) :
    (bcdDigits b).getD j 0 = BitVec.ofNat 8 (b.toNat / 10 ^ (2 - j) % 10) := by
  have hb := b.isLt
  have hhundreds : b.toNat / 100 % 10 = b.toNat / 100 := Nat.mod_eq_of_lt (by omega)
  match j, h with
  | 0, _ => exact congrArg (BitVec.ofNat 8) hhundreds.symm
  | 1, _ => rfl
  | 2, _ => exact congrArg (fun m => BitVec.ofNat 8 (m % 10)) (Nat.div_one b.toNat).symm

theorem State.read_store_bcdDigits (s : State) (x : Reg) (a : Nat) :
    (s.store (s.address 0) (bcdDigits (s.reg x))).mem.read a =
      s.byteUnderStore 3 (fun j => BitVec.ofNat 8 ((s.reg x).toNat / 10 ^ (2 - j) % 10)) a :=
  (s.read_store_at_I _ a).trans (s.byteUnderStore_congr (fun _ hj => bcdDigits_getD (s.reg x) hj) a)

theorem State.read_store_regsUpTo (s : State) (x : Reg) (a : Nat) :
    (s.store (s.address 0) (s.regsUpTo x)).mem.read a =
      s.byteUnderStore (x.val + 1) (fun j => s.reg (Fin.ofNat 16 j)) a := by
  rw [State.read_store_at_I, State.regsUpTo_length]
  refine s.byteUnderStore_congr (fun j hj => ?_) a
  have hx := x.isLt
  have hval : (Fin.ofNat 16 j).val = j := Nat.mod_eq_of_lt (by omega)
  have hget := s.regsUpTo_getD x (Fin.ofNat 16 j) (by omega)
  rwa [hval] at hget

theorem digit_toNat (m : Nat) : (BitVec.ofNat 8 (m % 10)).toNat = m % 10 := by
  rw [BitVec.toNat_ofNat]
  omega

/-- Settles O56: the three stored digits, the hundreds at most 2, and the old bytes around them. -/
theorem ldBStoresThreeDigits : Obligations.LdBStoresThreeDigits := by
  unfold Obligations.LdBStoresThreeDigits
  intro x s h
  have hlt := (s.reg x).isLt
  have hread := s.read_store_bcdDigits x
  have hdigit : ∀ j < 3, ((s.store (s.address 0) (bcdDigits (s.reg x))).mem.read (s.i.toNat + j)).toNat =
      (s.reg x).toNat / 10 ^ (2 - j) % 10 := fun j hj => by
    rw [hread, s.byteUnderStore_inside _ hj, digit_toNat]
  refine ⟨_, exec_ldBVx_of_inside x h, rfl, (hdigit 0 (by decide)).trans ?_, hdigit 1 (by decide),
    (hdigit 2 (by decide)).trans (by rw [Nat.pow_zero, Nat.div_one]), fun a ha => ?_⟩
  · exact Nat.mod_eq_of_lt (by omega)
  · exact (hread a).trans (s.byteUnderStore_outside _ (by omega))

/-- The j-th byte a block store leaves is V[j] (R176). -/
theorem State.read_store_regsUpTo_reg (s : State) {x r : Reg} (hr : r.val ≤ x.val) :
    (s.store (s.address 0) (s.regsUpTo x)).mem.read (s.i.toNat + r.val) = s.reg r := by
  rw [s.read_store_regsUpTo, s.byteUnderStore_inside _ (Nat.lt_succ_of_le hr)]
  exact congrArg s.reg (Fin.ext (Nat.mod_eq_of_lt r.isLt))

/-- Settles O57: what a block store leaves at each address and a block load in each register. -/
theorem blockStoreAndBlockLoad : Obligations.BlockStoreAndBlockLoad := by
  unfold Obligations.BlockStoreAndBlockLoad
  intro x s h
  refine ⟨⟨_, exec_storeRegs_of_inside h, rfl, fun r hr => s.read_store_regsUpTo_reg hr, fun a ha => ?outside⟩,
    ⟨_, exec_loadRegs_of_inside h, rfl, fun r hr => ?loaded, fun r hr => ?kept⟩⟩
  case outside => exact (s.read_store_regsUpTo x a).trans (s.byteUnderStore_outside _ (by omega))
  case loaded => rw [State.reg_advance, State.reg_loadRun, if_pos hr]; rfl
  case kept => rw [State.reg_advance, State.reg_loadRun, if_neg (Nat.not_le.2 hr)]

/-- Settles O58: the load reads at each address what the store put there. -/
theorem blockLoadAfterBlockStoreRestores : Obligations.BlockLoadAfterBlockStoreRestores := by
  unfold Obligations.BlockLoadAfterBlockStoreRestores
  intro x s u w h hu hmem hi
  rw [exec_storeRegs_of_inside h] at hu
  cases hu
  obtain ⟨_, t, hexec, _, hloaded, _⟩ := blockStoreAndBlockLoad x w (by rwa [hi])
  refine ⟨t, hexec, fun r hr => ?_⟩
  rw [hloaded r hr, hmem, hi]
  exact s.read_store_regsUpTo_reg hr

/-! ### The next fetch -/

/-- The word fetched after an instruction that advanced PC, byte by byte (R47, R83). -/
theorem State.fetchWord_advance (s : State) (h : s.pc.toNat ≤ 0xFFC) :
    s.advance.fetchWord = wordOf (s.mem.read (s.pc.toNat + 2)) (s.mem.read (s.pc.toNat + 3)) := by
  rw [State.fetchWord, s.advance_pc_toNat (by omega), State.advance_mem]

/-- Settles O60: the next fetch reads memory as the store left it. -/
theorem storedBytesAreSeenByTheNextFetch : Obligations.StoredBytesAreSeenByTheNextFetch := by
  unfold Obligations.StoredBytesAreSeenByTheNextFetch
  refine fun x s hpc => ⟨fun h => ⟨_, exec_ldBVx_of_inside x h, ?digits⟩,
    fun h => ⟨_, exec_storeRegs_of_inside h, ?registers⟩⟩
  case digits =>
    intro digit
    rw [State.fetchWord_advance (s.store _ _) hpc, State.read_store_bcdDigits, State.read_store_bcdDigits]
    rfl
  case registers =>
    intro register
    rw [State.fetchWord_advance (s.store _ _) hpc, State.read_store_regsUpTo, State.read_store_regsUpTo]
    rfl

end Sys2Proof.Machine
end
